-- ==== Sys2Proof/Word.lean ====
section
/-! DEFINITION. Words of the IntCode execution block: mathematical integers with a range (00_scope.md R6, R7).
The spec's values are mathematical integers and no rule looks at a word's bits, so a word is an `Int`; that it lies in the
range of R6 is kept as an invariant of the state (log 3). -/

namespace Sys2Proof

/-- The least word of width `W`: `-2^(W-1)` (R6). -/
def wordMin (W : Nat) : Int := -((2 ^ (W - 1) : Nat) : Int)

/-- The greatest word of width `W`: `2^(W-1) - 1` (R6). -/
def wordMax (W : Nat) : Int := ((2 ^ (W - 1) : Nat) : Int) - 1

/-- `v` is a word of width `W`: it lies in `WORD = [-2^(W-1), 2^(W-1)-1]` (R6). -/
abbrev IsWord (W : Nat) (v : Int) : Prop := wordMin W ≤ v ∧ v ≤ wordMax W

end Sys2Proof
end

