-- ==== Sys2Proof/Config.lean ====
section
/-! DEFINITION. The two parameters of an implementation that the spec leaves open (00_scope.md R5). -/

namespace Sys2Proof

/-- The implementation parameters `W` and `MAX_LEN` of R5. They are fixed for a machine: State carries them as data,
no step writes them, and a claim is about every value of them (log 1, log 2). -/
structure Config where
  /-- `W`, the word width in bits. -/
  wordWidth : Nat
  /-- `MAX_LEN`, the largest memory length the memory controller can reach. -/
  maxLen : Nat
deriving DecidableEq, Repr

/-- The bounds R5 puts on the parameters: `W >= 54` and `1 <= MAX_LEN <= 2^(W-1)`. -/
abbrev Config.Admissible (c : Config) : Prop :=
  54 ≤ c.wordWidth ∧ 1 ≤ c.maxLen ∧ c.maxLen ≤ 2 ^ (c.wordWidth - 1)

/-- The parameters State.reset has: `W = 64`, the default of R5 (D1), and `MAX_LEN = 2^63`, "in effect no limit below
the word range" (D3). DESIGN CHOICE (log 1, log 2). -/
def Config.standard : Config := ⟨64, 2 ^ 63⟩

/-- `v` is a word of this machine. -/
abbrev Config.InWord (c : Config) (v : Int) : Prop := IsWord c.wordWidth v

end Sys2Proof
end

