-- ==== Sys2Proof/Syntax.lean ====
section
/-! DEFINITION. The instructions of the IntCode execution block, one constructor for each row of the opcode table
(30_encoding.md R51), and the pseudo-instructions of R65. -/

namespace Sys2Proof

/-- The three addressing modes (R57). -/
inductive Mode where
  | position
  | immediate
  | relative
deriving DecidableEq, Repr

/-- One parameter of an instruction: its mode digit and its parameter word (R49, R57). -/
structure Param where
  mode : Mode
  word : Int
deriving DecidableEq, Repr

/-- An instruction with its parameters in order (R51). The mode digits of parameters the opcode does not have are
checked by the decoder and then ignored (R56), so they are no part of the instruction. -/
inductive Instr where
  /-- Addition, opcode 1 (R87). -/
  | add (a b dst : Param)
  /-- Multiplication, opcode 2 (R88). -/
  | mul (a b dst : Param)
  /-- Input, opcode 3 (R89). -/
  | inp (dst : Param)
  /-- Output, opcode 4 (R90). -/
  | out (a : Param)
  /-- JumpIfTrue, opcode 5 (R91). -/
  | jt (a b : Param)
  /-- JumpIfFalse, opcode 6 (R92). -/
  | jf (a b : Param)
  /-- LessThan, opcode 7 (R93). -/
  | lt (a b dst : Param)
  /-- Equals, opcode 8 (R94). -/
  | eq (a b dst : Param)
  /-- AdjustRelativeBase, opcode 9 (R95). -/
  | arb (a : Param)
  /-- EndProgram, opcode 99 (R96). -/
  | hlt
deriving DecidableEq, Repr

/-- The parameters of an instruction, in order. -/
def Instr.params : Instr → List Param
  | .add a b d => [a, b, d]
  | .mul a b d => [a, b, d]
  | .inp d => [d]
  | .out a => [a]
  | .jt a b => [a, b]
  | .jf a b => [a, b]
  | .lt a b d => [a, b, d]
  | .eq a b d => [a, b, d]
  | .arb a => [a]
  | .hlt => []

/-- The destination parameter, for the opcodes that have one (`dstIndex` of R51). -/
def Instr.dst : Instr → Option Param
  | .add _ _ d => some d
  | .mul _ _ d => some d
  | .inp d => some d
  | .out _ => none
  | .jt _ _ => none
  | .jf _ _ => none
  | .lt _ _ d => some d
  | .eq _ _ d => some d
  | .arb _ => none
  | .hlt => none

/-- The read parameters, in order: the parameters but for the destination, which is the last one where there is one
(R51). -/
def Instr.reads : Instr → List Param
  | .add a b _ => [a, b]
  | .mul a b _ => [a, b]
  | .inp _ => []
  | .out a => [a]
  | .jt a b => [a, b]
  | .jf a b => [a, b]
  | .lt a b _ => [a, b]
  | .eq a b _ => [a, b]
  | .arb a => [a]
  | .hlt => []

/-- The Immediate parameter `#v`. -/
def Param.lit (v : Int) : Param := ⟨.immediate, v⟩

/-- `MOV s, d` is `ADD s, #0, d` (R65). -/
def Instr.mov (s d : Param) : Instr := .add s (.lit 0) d

/-- `JMP t` is `JT #1, t` (R65). -/
def Instr.jmp (t : Param) : Instr := .jt (.lit 1) t

/-- `NEG s, d` is `MUL s, #-1, d` (R65). -/
def Instr.neg (s d : Param) : Instr := .mul s (.lit (-1)) d

/-- `CLR d` is `ADD #0, #0, d` (R65). -/
def Instr.clr (d : Param) : Instr := .add (.lit 0) (.lit 0) d

/-- `NOT01 s, d` is `EQ s, #0, d` (R65). -/
def Instr.not01 (s d : Param) : Instr := .eq s (.lit 0) d

end Sys2Proof
end

