-- ==== Sys2Proof/WellFormed.lean ====
section
/-! DEFINITION. When an instruction is well formed: its parameter words are words and it writes to no literal. -/

namespace Sys2Proof

/-- A parameter word is a whole word of memory (30_encoding.md R49, 00_scope.md R6). -/
def Param.wellFormed (c : Config) (p : Param) : Bool := decide (c.InWord p.word)

/-- A destination may not be Immediate: "Immediate mode illegal for write targets" (30_encoding.md R60). -/
def Param.writable (p : Param) : Bool := p.mode != .immediate

/-- An instruction is well formed when every parameter word is a word and its destination, if it has one, is not
Immediate. An instruction with an Immediate destination still decodes and faults when it runs (R60, R63). -/
def Instr.wellFormed (c : Config) (i : Instr) : Bool :=
  i.params.all (Param.wellFormed c) && i.dst.all Param.writable

end Sys2Proof
end

