-- ==== Sys2Proof/Decode.lean ====
section
/-! DEFINITION. The bytecode decoder, total on any words, and after it the encoder (30_encoding.md R49 to R63). -/

namespace Sys2Proof

/-- The ten opcodes (R51, R52). -/
inductive Opcode where
  | add | mul | inp | out | jt | jf | lt | eq | arb | hlt
deriving DecidableEq, Repr

/-- Why an instruction word does not decode (R53). -/
inductive DecodeFault where
  /-- A negative word, or an opcode field that is none of the ten (R53, R54). -/
  | invalidOpcode
  /-- Mode digit `k` is not 0, 1 or 2, or (`k = 4`) a digit above the ten-thousands place is not 0 (R53, R55). -/
  | invalidAddressingMode (k : Nat)
deriving DecidableEq, Repr

/-- The fields of a legal instruction word (R50). -/
structure Fields where
  op : Opcode
  m1 : Mode
  m2 : Mode
  m3 : Mode
deriving DecidableEq, Repr

/-- The k-th decimal digit of a non-negative number, digit 0 the least significant (00_scope.md R6). -/
def digit (n k : Nat) : Nat := n / 10 ^ k % 10

/-- The mode a mode digit stands for (R57). -/
def Mode.ofDigit : Nat → Option Mode
  | 0 => some .position
  | 1 => some .immediate
  | 2 => some .relative
  | _ => none

/-- The mode digit of a mode (R57). -/
def Mode.digit : Mode → Nat
  | .position => 0
  | .immediate => 1
  | .relative => 2

/-- The opcode field of each opcode (R51). -/
def Opcode.code : Opcode → Nat
  | .add => 1
  | .mul => 2
  | .inp => 3
  | .out => 4
  | .jt => 5
  | .jf => 6
  | .lt => 7
  | .eq => 8
  | .arb => 9
  | .hlt => 99

/-- The opcode an opcode field stands for; "Exactly ten values are defined" (R52). -/
def Opcode.ofCode : Nat → Option Opcode
  | 1 => some .add
  | 2 => some .mul
  | 3 => some .inp
  | 4 => some .out
  | 5 => some .jt
  | 6 => some .jf
  | 7 => some .lt
  | 8 => some .eq
  | 9 => some .arb
  | 99 => some .hlt
  | _ => none

/-- The number of parameters of an opcode (R51). -/
def Opcode.arity : Opcode → Nat
  | .add => 3
  | .mul => 3
  | .inp => 1
  | .out => 1
  | .jt => 2
  | .jf => 2
  | .lt => 3
  | .eq => 3
  | .arb => 1
  | .hlt => 0

/-- The index of the destination parameter, if the opcode has one (R51). -/
def Opcode.dstIndex : Opcode → Option Nat
  | .add => some 3
  | .mul => some 3
  | .inp => some 1
  | .out => none
  | .jt => none
  | .jf => none
  | .lt => some 3
  | .eq => some 3
  | .arb => none
  | .hlt => none

/-- A mode digit of parameter `k`, or the fault of R53. -/
def decodeMode (n place k : Nat) : Except DecodeFault Mode :=
  match Mode.ofDigit (digit n place) with
  | some m => .ok m
  | none => .error (.invalidAddressingMode k)

/-- `Decode(w)` of R53: sign, opcode, the three mode digits and the high digits are checked in this order. -/
def decodeWord (w : Int) : Except DecodeFault Fields :=
  if w < 0 then .error .invalidOpcode
  else
    match Opcode.ofCode (w.toNat % 100) with
    | none => .error .invalidOpcode
    | some op => do
      let m1 ← decodeMode w.toNat 2 1
      let m2 ← decodeMode w.toNat 3 2
      let m3 ← decodeMode w.toNat 4 3
      if w.toNat / 100000 ≠ 0 then .error (.invalidAddressingMode 4)
      else .ok ⟨op, m1, m2, m3⟩

/-- The instruction of the decoded fields and three parameter words, of which the opcode takes its arity (R51). -/
def assemble (f : Fields) (p1 p2 p3 : Int) : Instr :=
  match f.op with
  | .add => .add ⟨f.m1, p1⟩ ⟨f.m2, p2⟩ ⟨f.m3, p3⟩
  | .mul => .mul ⟨f.m1, p1⟩ ⟨f.m2, p2⟩ ⟨f.m3, p3⟩
  | .inp => .inp ⟨f.m1, p1⟩
  | .out => .out ⟨f.m1, p1⟩
  | .jt => .jt ⟨f.m1, p1⟩ ⟨f.m2, p2⟩
  | .jf => .jf ⟨f.m1, p1⟩ ⟨f.m2, p2⟩
  | .lt => .lt ⟨f.m1, p1⟩ ⟨f.m2, p2⟩ ⟨f.m3, p3⟩
  | .eq => .eq ⟨f.m1, p1⟩ ⟨f.m2, p2⟩ ⟨f.m3, p3⟩
  | .arb => .arb ⟨f.m1, p1⟩
  | .hlt => .hlt

/-- The instruction whose instruction word is `w` and whose following words are `ps`. A word that is not there reads 0,
as a parameter word past the end of memory does (20_memory.md R37, D7); words beyond the arity are not looked at (R61). -/
def decode (w : Int) (ps : List Int) : Except DecodeFault Instr :=
  match decodeWord w with
  | .ok f => .ok (assemble f (ps.getD 0 0) (ps.getD 1 0) (ps.getD 2 0))
  | .error e => .error e

/-- The opcode of an instruction. -/
def Instr.opcode : Instr → Opcode
  | .add _ _ _ => .add
  | .mul _ _ _ => .mul
  | .inp _ => .inp
  | .out _ => .out
  | .jt _ _ => .jt
  | .jf _ _ => .jf
  | .lt _ _ _ => .lt
  | .eq _ _ _ => .eq
  | .arb _ => .arb
  | .hlt => .hlt

/-- The mode digit of the parameter at position `k` of the list, 0 where there is none (the canonical form of R62). -/
def modeDigitAt (ps : List Param) (k : Nat) : Nat :=
  match ps[k]? with
  | some p => p.mode.digit
  | none => 0

/-- The canonical instruction word `op + 100*m1 + 1000*m2 + 10000*m3` (R49, R62). -/
def Instr.word (i : Instr) : Int :=
  ((i.opcode.code + 100 * modeDigitAt i.params 0 + 1000 * modeDigitAt i.params 1
    + 10000 * modeDigitAt i.params 2 : Nat) : Int)

/-- The words of an instruction: the instruction word and then one word for each parameter (R49, R62). -/
def encode (i : Instr) : List Int := i.word :: i.params.map Param.word

/-- The length of an instruction in words, from its opcode alone (R61). -/
def Instr.length (i : Instr) : Nat := 1 + i.opcode.arity

/-- The signed value of 64 bits, two's complement (00_scope.md R6, D1). -/
def signed64 (n : Nat) : Int := if n < 2 ^ 63 then (n : Int) else (n : Int) - 2 ^ 64

/-- The four words that a number of `nbits` bits lays out, bit 0 the least significant bit of the first word, every bit
above them 0. The table's word is 64 bits wide, the default of R5 (log 23). -/
def tableWords (nbits w : Nat) : List Int :=
  [0, 1, 2, 3].map fun j => signed64 (w % 2 ^ nbits / 2 ^ (64 * j) % 2 ^ 64)

/-- The instruction the decoder reads from an opcode-table word (log 23). -/
def decodeTableWord (nbits w : Nat) : Option Instr :=
  match decode ((tableWords nbits w).headD 0) (tableWords nbits w).tail with
  | .ok i => some i
  | .error _ => none

end Sys2Proof
end

