-- ==== Sys2Proof/Machine/State.lean ====
section
/-! DEFINITION. The state of the IntCode execution block and of the host's side of its interface, the reasons a step can
stop, and the state after reset (10_state.md R15 to R31). All of it is plain data. -/

namespace Sys2Proof.Machine

/-- The values of the execution-state register `st` (R21). -/
inductive VmState where
  | initial
  | waitingInstruction
  | output
  | ended
deriving DecidableEq, Repr

/-- The fault kinds of 60_exceptions.md R97, the values of the `fault` register (R24). -/
inductive FaultKind where
  | parseError
  | invalidOpcode
  | invalidAddressingMode
  | negativeAddress
  | illegalImmediateWrite
  | outOfBounds
  | arithmeticOverflow
  | capacityExceeded
deriving DecidableEq, Repr

/-- A fault with the values R97 records with it. Each is a fault the spec describes; where the spec itself chose a fault
because its source is silent, the log entry named says which side that choice errs on. -/
inductive Fault where
  /-- Raised by the loader for a token that is no word; never by a `run` call. Safe (log 22). -/
  | parseError (token : List Char)
  /-- Raised at decode, for a negative word or an undefined opcode. Safe (log 13). -/
  | invalidOpcode (w : Int) (ip : Nat)
  /-- Raised at decode, for a mode digit that is not 0, 1, 2 or (`k = 4`) a non-zero high digit. Safe (log 13). -/
  | invalidAddressingMode (w : Int) (ip : Nat) (k : Nat)
  /-- Raised by an effective address below 0 and by a taken jump to a target below 0. Safe (log 16, log 17). -/
  | negativeAddress (a : Int) (ip : Nat)
  /-- Raised by an instruction whose destination parameter `k` is Immediate. Safe: the source says so. -/
  | illegalImmediateWrite (ip : Nat) (k : Nat)
  /-- Raised by the fetch of an instruction word at `ip >= len`. Safe: the source says so. -/
  | outOfBounds (ip : Nat) (len : Nat)
  /-- Raised by ADD, MUL and ARB for an exact result that is no word. Safe (log 12). -/
  | arithmeticOverflow (v : Int) (ip : Nat)
  /-- Raised by a memory read or write at an address `>= MAX_LEN`. Safe (log 2). -/
  | capacityExceeded (a : Nat) (ip : Nat)
deriving DecidableEq, Repr

/-- Why a step has no meaning. -/
inductive Refusal where
  /-- Raised by `exec` for an instruction that has no meaning yet. Safe. No arm uses it. -/
  | notModelled (mnemonic : String)
  /-- Raised by an operation on an instance whose `fault` is set (40_execution_cycle.md R78). Safe (log 18). -/
  | faultedInstance
  /-- Raised by `poke(a, v)` with `a < 0` or `a >= len` (R84). Safe (log 20). -/
  | pokeOutOfRange (a : Int)
  /-- Raised by a request that hands over a value that is no word. Safe (log 21). -/
  | notAWord (v : Int)
  /-- Raised by a load of an image longer than MAX_LEN. Safe (log 21). -/
  | imageTooLong (n : Nat)
deriving DecidableEq, Repr

/-- The memory `mem` (R16) as a sparse map that keeps the exact length (20_memory.md R48): the length, and the cells
that differ from what an unlisted address reads as, in rising order of address (log 4). -/
structure Memory where
  len   : Nat
  cells : List (Nat × Int)
deriving DecidableEq, Repr

/-- What a cell that is not listed reads as: "Cells never written read 0" (R48, R36). -/
def Memory.unlisted : Int := 0

/-- The addresses of the cells rise strictly and none is below `lo`. -/
def Memory.risingFrom : Nat → List (Nat × Int) → Bool
  | _, [] => true
  | lo, (k, _) :: rest => decide (lo ≤ k) && Memory.risingFrom (k + 1) rest

/-- The canonical form: addresses strictly rising, no cell equal to what an unlisted address reads as, and every cell
below the length. Equal memories are then equal data. -/
def Memory.wf (m : Memory) : Bool :=
  Memory.risingFrom 0 m.cells && m.cells.all fun c => decide (c.2 ≠ Memory.unlisted) && decide (c.1 < m.len)

/-- An operation the host may ask for (40_execution_cycle.md R67). -/
inductive Request where
  /-- `load(P)`: the instance is made anew from an image (70_reset_and_hazards.md R113). -/
  | load (image : List Int)
  /-- `new(program_text)`: the textual form of load (R114). -/
  | new (text : List Char)
  /-- `run(input)` (R68). -/
  | run (input : Option Int)
  /-- `state` (R80). -/
  | state
  /-- `peek` (R83). -/
  | peek
  /-- `poke(a, v)`, the source's `set_ram` (R84). -/
  | poke (a : Int) (v : Int)
deriving DecidableEq, Repr

/-- A response to the host (R67). `load` and `poke` have none. -/
inductive Response where
  /-- `Ok(None)` or `Ok(Some(v))`: a run call that ended at a yield point (R72 to R74). -/
  | ok (v : Option Int)
  /-- `Err(fault)`: a call that ended in a fault (R75, R98). -/
  | err (f : Fault)
  /-- The value of `st` (R80). -/
  | state (st : VmState)
  /-- The whole of `mem`, with its length (R83). -/
  | memory (m : Memory)
deriving DecidableEq, Repr

/-- The state (R31), the parameters of R5, and the host's side of the interface of R67. -/
structure State where
  /-- The implementation parameters `W` and `MAX_LEN` (R5); no step writes them. -/
  cfg       : Config
  /-- The memory with its length (R16). -/
  mem       : Memory
  /-- The instruction pointer (R17). -/
  ip        : Nat
  /-- The relative base (R20). -/
  rb        : Int
  /-- The execution-state register (R21). -/
  st        : VmState
  /-- The input slot of the current run call (R23). -/
  inSlot    : Option Int
  /-- The fault register (R24). -/
  fault     : Option FaultKind
  /-- A run transaction is outstanding (R68, R79; log 8). -/
  running   : Bool
  /-- The host operations not yet served, oldest first (R67; log 6). -/
  requests  : List Request
  /-- The responses given to the host, oldest first; no register of the block (R26, R67; log 7). -/
  responses : List Response
deriving DecidableEq, Repr

/-- The state right after reset (R30) with the empty image, which 70_reset_and_hazards.md R113 lets a model admit: no
program is invented here (log 5). -/
def State.reset : State where
  cfg       := Config.standard
  mem       := ⟨0, []⟩
  ip        := 0
  rb        := 0
  st        := .initial
  inSlot    := none
  fault     := none
  running   := false
  requests  := []
  responses := []

end Sys2Proof.Machine
end

