-- ==== Sys2Proof/Machine/Ops.lean ====
section
/-! DEFINITION. The named operations over memory, registers, faults and the run transaction (20_memory.md R36 to R39,
00_scope.md R11, 40_execution_cycle.md R68 to R75, 60_exceptions.md R97, R98). -/

namespace Sys2Proof.Machine

/-! ## Memory cells (20_memory.md R48) -/

/-- The value listed for an address, or what an unlisted address reads as. -/
def lookupCell : List (Nat × Int) → Nat → Int
  | [], _ => Memory.unlisted
  | (k, v) :: rest, a => if k = a then v else lookupCell rest a

/-- A cell in front of a list, left out where it equals what an unlisted address reads as. -/
def consCell (a : Nat) (v : Int) (rest : List (Nat × Int)) : List (Nat × Int) :=
  if v = Memory.unlisted then rest else (a, v) :: rest

/-- The list with the value at one address replaced, in canonical form. -/
def setCell : List (Nat × Int) → Nat → Int → List (Nat × Int)
  | [], a, v => consCell a v []
  | (k, w) :: rest, a, v =>
    if a < k then consCell a v ((k, w) :: rest)
    else if a = k then consCell a v rest
    else (k, w) :: setCell rest a v

/-- The cells of consecutive words from an address on. -/
def cellsFrom : Nat → List Int → List (Nat × Int)
  | _, [] => []
  | a, v :: vs => consCell a v (cellsFrom (a + 1) vs)

/-- The memory that holds a program image: "cell `i` holds the i-th word of the listing" (10_state.md R30). -/
def Memory.ofImage (image : List Int) : Memory := ⟨image.length, cellsFrom 0 image⟩

/-- The word at an address, without any side effect; 0 past the end. -/
def Memory.peek (m : Memory) (a : Nat) : Int := lookupCell m.cells a

/-- `Extend(a)`: zero-fill up to and including address `a` (R36). -/
def Memory.extend (m : Memory) (a : Nat) : Memory :=
  if m.len ≤ a then { m with len := a + 1 } else m

/-- `Extend(a)` and then `mem[a] <- v` (R38). -/
def Memory.write (m : Memory) (a : Nat) (v : Int) : Memory :=
  { m.extend a with cells := setCell (m.extend a).cells a v }

/-- The words of memory in address order (R16, R83). -/
def Memory.toList (m : Memory) : List Int := (List.range m.len).map m.peek

/-! ## Encodings for a hardware register (92_eei_decisions.md D17, D18) -/

/-- The two-bit encoding of `st` (10_state.md R21, D17). -/
def VmState.code : VmState → BitVec 2
  | .initial => 0
  | .waitingInstruction => 1
  | .output => 2
  | .ended => 3

/-- The numeric code of a fault kind (60_exceptions.md R97). -/
def FaultKind.code : FaultKind → Nat
  | .parseError => 1
  | .invalidOpcode => 2
  | .invalidAddressingMode => 3
  | .negativeAddress => 4
  | .illegalImmediateWrite => 5
  | .outOfBounds => 6
  | .arithmeticOverflow => 7
  | .capacityExceeded => 8

/-- The kind of a fault (R97). -/
def Fault.kind : Fault → FaultKind
  | .parseError _ => .parseError
  | .invalidOpcode _ _ => .invalidOpcode
  | .invalidAddressingMode _ _ _ => .invalidAddressingMode
  | .negativeAddress _ _ => .negativeAddress
  | .illegalImmediateWrite _ _ => .illegalImmediateWrite
  | .outOfBounds _ _ => .outOfBounds
  | .arithmeticOverflow _ _ => .arithmeticOverflow
  | .capacityExceeded _ _ => .capacityExceeded

/-! ## Memory accesses of an instruction -/

/-- `MemRead(a, 1)` (R37): the word and the state with the memory extended. -/
def memRead (a : Nat) (s : State) : Except Fault (Int × State) :=
  if s.cfg.maxLen ≤ a then .error (.capacityExceeded a s.ip)
  else .ok (s.mem.peek a, { s with mem := s.mem.extend a })

/-- `MemWrite(a, 1, v)` (R38). -/
def memWrite (a : Nat) (v : Int) (s : State) : Except Fault State :=
  if s.cfg.maxLen ≤ a then .error (.capacityExceeded a s.ip)
  else .ok { s with mem := s.mem.write a v }

/-- `Fetch(ip)` (R39): the instruction word, with no extension. -/
def fetch (s : State) : Except Fault Int :=
  if s.mem.len ≤ s.ip then .error (.outOfBounds s.ip s.mem.len)
  else .ok (s.mem.peek s.ip)

/-- The fault of an instruction word that does not decode (R97). -/
def DecodeFault.toFault (w : Int) (ip : Nat) : DecodeFault → Fault
  | .invalidOpcode => .invalidOpcode w ip
  | .invalidAddressingMode k => .invalidAddressingMode w ip k

/-- The three words after the instruction word, as `MemRead` reads them (a word past the end reads 0, R37); the extension
and the capacity check of these reads are a stage of their own (`readParamWords`; log 10). -/
def followingWords (s : State) : List Int :=
  [s.mem.peek (s.ip + 1), s.mem.peek (s.ip + 2), s.mem.peek (s.ip + 3)]

/-- Fetch and decode (40_execution_cycle.md R70): the instruction at `ip`. -/
def fetchInstr (s : State) : Except Fault Instr :=
  match fetch s with
  | .error f => .error f
  | .ok w =>
    match decode w (followingWords s) with
    | .error e => .error (DecodeFault.toFault w s.ip e)
    | .ok i => .ok i

/-! ## Control (00_scope.md R11) -/

/-- Sequential advance of `ip` (10_state.md R17). -/
def advance (n : Nat) (s : State) : State := { s with ip := s.ip + n }

/-- A taken jump: a negative target faults at the jump, any other target is the next `ip` (43_jumps.md R91, R92). -/
def jumpTo (v : Int) (s : State) : Except Fault State :=
  if v < 0 then .error (.negativeAddress v s.ip) else .ok { s with ip := v.toNat }

/-- The start of `run(input)` (40_execution_cycle.md R68). -/
def startRun (input : Option Int) (s : State) : State :=
  { s with st := .initial, inSlot := input, running := true }

/-- The normal end of a run call: the response goes to the host, and a value not consumed is discarded (R72 to R74,
10_state.md R23). -/
def yieldWith (st : VmState) (v : Option Int) (s : State) : State :=
  { s with st := st, inSlot := none, running := false, responses := s.responses ++ [.ok v] }

/-- How an instruction ends: in its next state, or by taking the fault it raised. "There is no trap entry" (R103): a
fault saves nothing in the block and transfers control nowhere in it, so taking it is the fault outcome of R112. -/
def finish : Except Fault State → Host.Outcome State Fault Refusal
  | .ok s => .next s
  | .error f => .fault f

/-- The instance after a fault (R24, R75, R98): `fault` is set, the call has ended and its response is `Err(fault)`.
What R75 leaves unspecified keeps its value, which no operation can observe (R78; log 9). -/
def abort (f : Fault) (s : State) : State :=
  { s with fault := some f.kind, inSlot := none, running := false, responses := s.responses ++ [.err f] }

/-! ## Reset (70_reset_and_hazards.md R113) -/

/-- The reset state of R30 for a program image, on a machine with given parameters. -/
def State.load (cfg : Config) (image : List Int) : State :=
  { State.reset with cfg := cfg, mem := Memory.ofImage image }

end Sys2Proof.Machine
end

