-- ==== Sys2Proof/Machine/Flags.lean ====
section
/-! DEFINITION. The tests and checks an instruction computes. The block has no flags or condition codes (10_state.md
R27): a comparison's result is the word 1 or 0, a jump tests an operand value, and the ALU's only check is `chk`. -/

namespace Sys2Proof.Machine

/-- `chk(v)` (00_scope.md R8): an exact result that is no word raises `ArithmeticOverflow`. -/
def chk (v : Int) (s : State) : Except Fault Int :=
  if s.cfg.InWord v then .ok v else .error (.arithmeticOverflow v s.ip)

/-- The word a comparison writes: 1 for true, 0 for false (44_compare.md R93, R94). -/
def boolWord (b : Bool) : Int := if b then 1 else 0

/-- The signed comparison of LessThan (R93). -/
def lessThan (a b : Int) : Bool := decide (a < b)

/-- The comparison of Equals (R94). -/
def equals (a b : Int) : Bool := decide (a = b)

/-- The condition of JumpIfTrue: "any non-zero condition, negative included, is true" (43_jumps.md R91). -/
def nonZero (a : Int) : Bool := decide (a ≠ 0)

end Sys2Proof.Machine
end

