-- ==== Sys2Proof/Machine/Operands.lean ====
section
/-! DEFINITION. The addressing-mode multiplexer and the common pipeline of an instruction from its parameter words to
its operand values (30_encoding.md R57 to R60, 40_execution_cycle.md R70). -/

namespace Sys2Proof.Machine

/-- The exact sum a Position or Relative parameter designates, not yet checked (R58). For an Immediate parameter, which
designates no address, it is the parameter word and is not used. -/
def paramSum (rb : Int) (p : Param) : Int :=
  match p.mode with
  | .position => p.word
  | .immediate => p.word
  | .relative => rb + p.word

/-- `EA(m, p)` (R58). -/
def effAddr (p : Param) (s : State) : Except Fault Nat :=
  if paramSum s.rb p < 0 then .error (.negativeAddress (paramSum s.rb p) s.ip)
  else .ok (paramSum s.rb p).toNat

/-- Where a read parameter's value is: in the instruction itself, or in a cell (R57). -/
inductive Source where
  | literal (v : Int)
  | cell (a : Nat)
deriving DecidableEq, Repr

/-- The effective-address check of a read parameter: none for Immediate (R70). -/
def locate (p : Param) (s : State) : Except Fault Source :=
  match p.mode with
  | .position => (effAddr p s).map Source.cell
  | .immediate => .ok (.literal p.word)
  | .relative => (effAddr p s).map Source.cell

/-- `Operand(k)` (R59): a literal as it is, a cell by `MemRead`. -/
def operand : Source → State → Except Fault (Int × State)
  | .literal v, s => .ok (v, s)
  | .cell a, s => memRead a s

/-- The destination check made right after decode, before any parameter word is read (R60). -/
def checkDst (k : Nat) (d : Param) (s : State) : Except Fault Unit :=
  match d.mode with
  | .position => .ok ()
  | .immediate => .error (.illegalImmediateWrite s.ip k)
  | .relative => .ok ()

/-- The reads of the parameter words at `ip + 1 .. ip + n`, in order (R70): they extend memory and may exceed its
capacity. The words themselves are the instruction's own (log 10). -/
def readParamWords : Nat → State → Except Fault State
  | 0, s => .ok s
  | n + 1, s =>
    match readParamWords n s with
    | .error f => .error f
    | .ok s' =>
      match memRead (s'.ip + (n + 1)) s' with
      | .error f => .error f
      | .ok (_, s'') => .ok s''

/-- The pipeline of an instruction with two read parameters and a destination (opcodes 1, 2, 7, 8): the two operand
values, the checked destination address, and the state after the reads. -/
def readTwoAndDst (a b d : Param) (s : State) : Except Fault (Int × Int × Nat × State) := do
  checkDst 3 d s
  let s1 ← readParamWords 3 s
  let la ← locate a s1
  let lb ← locate b s1
  let ad ← effAddr d s1
  let (va, s2) ← operand la s1
  let (vb, s3) ← operand lb s2
  return (va, vb, ad, s3)

/-- The pipeline of an instruction with two read parameters (opcodes 5, 6). -/
def readTwo (a b : Param) (s : State) : Except Fault (Int × Int × State) := do
  let s1 ← readParamWords 2 s
  let la ← locate a s1
  let lb ← locate b s1
  let (va, s2) ← operand la s1
  let (vb, s3) ← operand lb s2
  return (va, vb, s3)

/-- The pipeline of an instruction with one read parameter (opcodes 4, 9). -/
def readOne (a : Param) (s : State) : Except Fault (Int × State) := do
  let s1 ← readParamWords 1 s
  let la ← locate a s1
  operand la s1

/-- The pipeline of an instruction whose one parameter is a destination (opcode 3). -/
def dstOnly (d : Param) (s : State) : Except Fault (Nat × State) := do
  checkDst 1 d s
  let s1 ← readParamWords 1 s
  let ad ← effAddr d s1
  return (ad, s1)

/-- What an instruction that computes one word from two operands and stores it does: pipeline, result, store, advance
(R87, R88, R93, R94). -/
def storeResult (result : Int → Int → State → Except Fault Int) (a b d : Param) (s : State) :
    Except Fault State := do
  let (va, vb, ad, s1) ← readTwoAndDst a b d s
  let v ← result va vb s1
  let s2 ← memWrite ad v s1
  return advance 4 s2

/-- What a conditional jump does: pipeline, then jump or advance (R91, R92). -/
def jumpWhen (taken : Int → Bool) (a b : Param) (s : State) : Except Fault State := do
  let (va, vb, s1) ← readTwo a b s
  if taken va then jumpTo vb s1 else return advance 3 s1

end Sys2Proof.Machine
end

