-- ==== Sys2Proof/Machine/Arithmetic.lean ====
section
/-! DEFINITION. Addition and Multiplication (41_arithmetic.md). -/

namespace Sys2Proof.Machine

/-- ADD: `mem[dst] <- chk(a + b)`, `ip + 4` (R87). -/
def execAdd (a b d : Param) (s : State) : Host.Outcome State Fault Refusal :=
  finish (storeResult (fun va vb s1 => chk (va + vb) s1) a b d s)

/-- MUL: `mem[dst] <- chk(a * b)`, `ip + 4` (R88). -/
def execMul (a b d : Param) (s : State) : Host.Outcome State Fault Refusal :=
  finish (storeResult (fun va vb s1 => chk (va * vb) s1) a b d s)

end Sys2Proof.Machine
end

