-- ==== Sys2Proof/Machine/Compare.lean ====
section
/-! DEFINITION. The comparisons (44_compare.md). -/

namespace Sys2Proof.Machine

/-- LT: `mem[dst] <- 1` if `a < b`, else 0; `ip + 4` (R93). It cannot overflow. -/
def execLt (a b d : Param) (s : State) : Host.Outcome State Fault Refusal :=
  finish (storeResult (fun va vb _ => .ok (boolWord (lessThan va vb))) a b d s)

/-- EQ: `mem[dst] <- 1` if `a = b`, else 0; `ip + 4` (R94). It cannot overflow. -/
def execEq (a b d : Param) (s : State) : Host.Outcome State Fault Refusal :=
  finish (storeResult (fun va vb _ => .ok (boolWord (equals va vb))) a b d s)

end Sys2Proof.Machine
end

