-- ==== Sys2Proof/Machine/InputOutput.lean ====
section
/-! DEFINITION. Input and Output (42_io.md). -/

namespace Sys2Proof.Machine

/-- The Execute arm of Input, with the checked destination address (R89): a full slot is consumed, an empty slot yields
`None` with `ip` unchanged. -/
def takeInput (ad : Nat) (s : State) : Except Fault State :=
  match s.inSlot with
  | some x =>
    match memWrite ad x s with
    | .error f => .error f
    | .ok s1 => .ok (advance 2 { s1 with inSlot := none })
  | none => .ok (yieldWith .waitingInstruction none s)

/-- IN (R89). The destination is resolved before the slot is looked at (log 17). -/
def execIn (d : Param) (s : State) : Host.Outcome State Fault Refusal :=
  finish (do
    let (ad, s1) ← dstOnly d s
    takeInput ad s1)

/-- OUT: `ip + 2`, `st <- Output`, yield `Some(a)` (R90). -/
def execOut (a : Param) (s : State) : Host.Outcome State Fault Refusal :=
  finish (do
    let (va, s1) ← readOne a s
    return yieldWith .output (some va) (advance 2 s1))

end Sys2Proof.Machine
end

