-- ==== Sys2Proof/Machine/Jumps.lean ====
section
/-! DEFINITION. The conditional jumps (43_jumps.md). -/

namespace Sys2Proof.Machine

/-- JT: "if a≠0: ip=b; else ip+=3" (R91). -/
def execJt (a b : Param) (s : State) : Host.Outcome State Fault Refusal :=
  finish (jumpWhen (fun va => nonZero va) a b s)

/-- JF: "if a==0: ip=b; else ip+=3" (R92). -/
def execJf (a b : Param) (s : State) : Host.Outcome State Fault Refusal :=
  finish (jumpWhen (fun va => !nonZero va) a b s)

end Sys2Proof.Machine
end

