-- ==== Sys2Proof/Machine/ProgramEnd.lean ====
section
/-! DEFINITION. EndProgram (46_end.md). -/

namespace Sys2Proof.Machine

/-- HLT: `st <- Ended`, yield `None`, `ip` unchanged (R96). No parameter word is read. -/
def execHlt (s : State) : Host.Outcome State Fault Refusal :=
  finish (.ok (yieldWith .ended none s))

end Sys2Proof.Machine
end

