-- ==== Sys2Proof/Machine/RelativeBase.lean ====
section
/-! DEFINITION. AdjustRelativeBase (45_relative_base.md). -/

namespace Sys2Proof.Machine

/-- ARB: `rb <- chk(rb + a)`, `ip + 2` (R95). The operand is read with the relative base before the adjustment. -/
def execArb (a : Param) (s : State) : Host.Outcome State Fault Refusal :=
  finish (do
    let (va, s1) ← readOne a s
    let r ← chk (s1.rb + va) s1
    return advance 2 { s1 with rb := r })

end Sys2Proof.Machine
end

