-- ==== Sys2Proof/Machine/Loader.lean ====
section
/-! DEFINITION. The program listing and its loader (70_reset_and_hazards.md R114), and the text of an instruction in the
spec's assembler syntax (30_encoding.md R64). The loader is outside the block (00_scope.md R4); it is here so that a
listing of the source is a request a model can be given. -/

namespace Sys2Proof.Machine

/-- White space: space, tab, line feed, carriage return (log 22). -/
def isBlank (c : Char) : Bool := c == ' ' || c == '\t' || c == '\n' || c == '\r'

/-- `trim`: remove leading and trailing white space (R114). -/
def trim (t : List Char) : List Char := ((t.dropWhile isBlank).reverse.dropWhile isBlank).reverse

/-- `split(text, ',')`: the tokens between commas, at least one (R114). -/
def splitComma : List Char → List (List Char)
  | [] => [[]]
  | c :: cs =>
    if c = ',' then [] :: splitComma cs
    else
      match splitComma cs with
      | [] => [[c]]
      | t :: ts => (c :: t) :: ts

/-- The value of a decimal digit character. -/
def digitValue (c : Char) : Option Nat := if 48 ≤ c.toNat ∧ c.toNat ≤ 57 then some (c.toNat - 48) else none

/-- The value of the digits that follow those already read (`acc`). -/
def parseDigits : Nat → List Char → Option Nat
  | acc, [] => some acc
  | acc, c :: cs =>
    match digitValue c with
    | some d => parseDigits (10 * acc + d) cs
    | none => none

/-- `[0-9]+`. -/
def parseNat : List Char → Option Nat
  | [] => none
  | c :: cs => parseDigits 0 (c :: cs)

/-- `[+-]?[0-9]+` (R114). -/
def parseInt : List Char → Option Int
  | '-' :: cs => (parseNat cs).map fun n => -(n : Int)
  | '+' :: cs => (parseNat cs).map fun n => (n : Int)
  | cs => (parseNat cs).map fun n => (n : Int)

/-- One token: an integer in the word range, or a `ParseError` naming the token (R114). -/
def parseToken (W : Nat) (t : List Char) : Except (List Char) Int :=
  match parseInt (trim t) with
  | some v => if IsWord W v then .ok v else .error t
  | none => .error t

/-- The tokens in order; the first offending one is reported. -/
def parseTokens (W : Nat) : List (List Char) → Except (List Char) (List Int)
  | [] => .ok []
  | t :: ts =>
    match parseToken W t with
    | .error e => .error e
    | .ok v =>
      match parseTokens W ts with
      | .error e => .error e
      | .ok vs => .ok (v :: vs)

/-- `Load(text)` up to the image it yields (R114). -/
def parseListing (W : Nat) (text : List Char) : Except (List Char) (List Int) :=
  parseTokens W (splitComma (trim text))

/-- The character of a decimal digit. -/
def digitChar (d : Nat) : Char := Char.ofNat (48 + d)

/-- The decimal digits of a number, most significant first, at most `fuel` of them. -/
def natChars : Nat → Nat → List Char
  | 0, _ => []
  | fuel + 1, n => if n < 10 then [digitChar n] else natChars fuel (n / 10) ++ [digitChar (n % 10)]

/-- The decimal text of an integer. -/
def intChars (v : Int) : List Char :=
  if v < 0 then '-' :: natChars (v.natAbs.log2 + 1) v.natAbs else natChars (v.natAbs.log2 + 1) v.natAbs

/-- The listing of a program: "its words in address order, separated by commas" (R64). -/
def renderListing : List Int → List Char
  | [] => []
  | [v] => intChars v
  | v :: w :: vs => intChars v ++ ',' :: renderListing (w :: vs)

/-- The mnemonic of an instruction (30_encoding.md R51). -/
def mnemonicChars : Instr → List Char
  | .add _ _ _ => "ADD".toList
  | .mul _ _ _ => "MUL".toList
  | .inp _ => "IN".toList
  | .out _ => "OUT".toList
  | .jt _ _ => "JT".toList
  | .jf _ _ => "JF".toList
  | .lt _ _ _ => "LT".toList
  | .eq _ _ _ => "EQ".toList
  | .arb _ => "ARB".toList
  | .hlt => "HLT".toList

/-- A parameter in the spec's syntax: `[n]`, `#n`, `[rb+n]` or `[rb-n]` (R64). -/
def paramChars (p : Param) : List Char :=
  match p.mode with
  | .position => '[' :: intChars p.word ++ [']']
  | .immediate => '#' :: intChars p.word
  | .relative =>
    if p.word < 0 then "[rb".toList ++ intChars p.word ++ [']']
    else "[rb+".toList ++ intChars p.word ++ [']']

/-- Parameters separated by a comma and a space (R64). -/
def paramsChars : List Param → List Char
  | [] => []
  | [p] => paramChars p
  | p :: q :: ps => paramChars p ++ ", ".toList ++ paramsChars (q :: ps)

/-- `MNEMONIC op1, op2, op3` (R64). -/
def instrChars (i : Instr) : List Char :=
  match i.params with
  | [] => mnemonicChars i
  | p :: ps => mnemonicChars i ++ ' ' :: paramsChars (p :: ps)

end Sys2Proof.Machine
end

