-- ==== Sys2Proof/Machine/HostOps.lean ====
section
/-! DEFINITION. The host's operations (40_execution_cycle.md R67, R68, R78, R80, R83, R84; 70_reset_and_hazards.md
R113, R114). Each is served whole, between run calls, from a state whose queue no longer holds it. -/

namespace Sys2Proof.Machine

/-- An operation on an instance with `fault != none` is refused (R78). -/
def ifLive (s : State) (o : Host.Outcome State Fault Refusal) : Host.Outcome State Fault Refusal :=
  match s.fault with
  | none => o
  | some _ => .refused .faultedInstance

/-- `run(input)`: the transaction starts (R68). -/
def serveRun (input : Option Int) (s : State) : Host.Outcome State Fault Refusal :=
  match input with
  | none => .next (startRun none s)
  | some v => if s.cfg.InWord v then .next (startRun (some v) s) else .refused (.notAWord v)

/-- `state`: the response is `st` (R80). -/
def serveState (s : State) : Host.Outcome State Fault Refusal :=
  .next { s with responses := s.responses ++ [.state s.st] }

/-- `peek`: the response is the whole of `mem`, which does not change (R83). -/
def servePeek (s : State) : Host.Outcome State Fault Refusal :=
  .next { s with responses := s.responses ++ [.memory s.mem] }

/-- `poke(a, v)`: `mem[a] <- v` for `0 <= a < len` and a word `v`, refused elsewhere (R84). -/
def servePoke (a : Int) (v : Int) (s : State) : Host.Outcome State Fault Refusal :=
  if a < 0 ∨ (s.mem.len : Int) ≤ a then .refused (.pokeOutOfRange a)
  else if s.cfg.InWord v then .next { s with mem := s.mem.write a.toNat v }
  else .refused (.notAWord v)

/-- The first value of a list that is no word. -/
def firstNonWord (c : Config) : List Int → Option Int
  | [] => none
  | v :: vs => if c.InWord v then firstNonWord c vs else some v

/-- `load(P)`: a new instance in the reset state of 10_state.md R30, whatever became of the old one (R104, R113). The
host's own queue and record go on. -/
def serveLoad (image : List Int) (s : State) : Host.Outcome State Fault Refusal :=
  match firstNonWord s.cfg image with
  | some v => .refused (.notAWord v)
  | none =>
    if s.cfg.maxLen < image.length then .refused (.imageTooLong image.length)
    else .next { State.load s.cfg image with requests := s.requests, responses := s.responses }

/-- `new(program_text)`: the loader reads the text, then `load` (R114). -/
def serveNew (text : List Char) (s : State) : Host.Outcome State Fault Refusal :=
  match parseListing s.cfg.wordWidth text with
  | .error t => .fault (.parseError t)
  | .ok image => serveLoad image s

/-- One host operation, in a state whose queue no longer holds it. -/
def serve (r : Request) (s : State) : Host.Outcome State Fault Refusal :=
  match r with
  | .load image => serveLoad image s
  | .new text => serveNew text s
  | .run input => ifLive s (serveRun input s)
  | .state => ifLive s (serveState s)
  | .peek => ifLive s (servePeek s)
  | .poke a v => ifLive s (servePoke a v s)

/-- Between run calls: the oldest pending operation is served, and with none pending the block idles, its state unchanged
(60_exceptions.md R111). -/
def idleStep (s : State) : Host.Outcome State Fault Refusal :=
  match s.requests with
  | [] => .next s
  | r :: rest => serve r { s with requests := rest }

end Sys2Proof.Machine
end

