-- ==== Sys2Proof/Machine/Step.lean ====
section
/-! DEFINITION. One step: an instruction of the outstanding run call, or between calls one host operation
(40_execution_cycle.md R67 to R71, R79). -/

namespace Sys2Proof.Machine

/-- One step. While a run call is outstanding nothing but its instructions happens (R69, R79). An instance with a fault
set has no meaning for any operation (R78). -/
def step (s : State) : Host.Outcome State Fault Refusal :=
  match s.running, s.fault with
  | true, none =>
    match fetchInstr s with
    | .error f => .fault f
    | .ok i => exec i s
  | true, some _ => .refused .faultedInstance
  | false, _ => idleStep s

/-- `s` with an opcode-table word at `ip` (its words and, up to four words, zeros) inside a run call, so that the next
step runs it: a load of these words and the start of a run call (log 5). -/
def State.withFetchWord (s : State) (nbits w : Nat) : State :=
  { s with
    mem := (tableWords nbits w).zipIdx.foldl (fun m x => m.write (s.ip + x.2) x.1) s.mem
    st := .initial
    fault := none
    running := true }

end Sys2Proof.Machine
end

