-- ==== Sys2Proof/Machine/Pipeline.lean ====
section
/-! DEFINITION. The common pipeline of 40_execution_cycle.md R70 written over lists, as the rule has it: the parameter
words are what `MemRead` returns, `n` and `d` come from the opcode, and the Execute arm is chosen by the opcode. It is the
clear reading of R70 that the machine's own step is held against; the machine itself does not call it. -/

namespace Sys2Proof.Machine

/-- `for k in 1..n: p_k <- MemRead(ip + k, 1)`. -/
def pipelineParams : Nat → State → Except Fault (List Int × State)
  | 0, s => .ok ([], s)
  | n + 1, s => do
    let (ps, s1) ← pipelineParams n s
    let (p, s2) ← memRead (s1.ip + (n + 1)) s1
    return (ps ++ [p], s2)

/-- `if m_k != 1: ea_k <- EA(m_k, p_k)`. -/
def pipelineAddr (s : State) (p : Param) : Except Fault (Option Nat) :=
  if p.mode = .immediate then .ok none else (effAddr p s).map some

/-- `for k in 1..n: if m_k != 1: ea_k <- EA(m_k, p_k)`. -/
def pipelineAddrs (s : State) : List Param → Except Fault (List (Option Nat))
  | [] => .ok []
  | p :: ps => do
    let a ← pipelineAddr s p
    let rest ← pipelineAddrs s ps
    return a :: rest

/-- `v_k <- Operand(k)` for `k != d`; the destination's place holds 0 and is not used. -/
def pipelineOperand (d : Option Nat) (k : Nat) (p : Param) (a : Option Nat) (s : State) : Except Fault (Int × State) :=
  if d = some k then .ok (0, s)
  else
    match a with
    | none => .ok (p.word, s)
    | some a => memRead a s

/-- `for k in 1..n, k != d: v_k <- Operand(k)`, from parameter `k` on. -/
def pipelineOperands (d : Option Nat) : Nat → List (Param × Option Nat) → State → Except Fault (List Int × State)
  | _, [], s => .ok ([], s)
  | k, (p, a) :: rest, s => do
    let (v, s1) ← pipelineOperand d k p a s
    let (vs, s2) ← pipelineOperands d (k + 1) rest s1
    return (v :: vs, s2)

/-- `Execute(op)` with `v_1`, `v_2` and the destination address (R87 to R96). -/
def pipelineExecute (op : Opcode) (v1 v2 : Int) (ea : Nat) (s : State) : Except Fault State :=
  match op with
  | .add => do
    let r ← chk (v1 + v2) s
    let s1 ← memWrite ea r s
    return { s1 with ip := s1.ip + 4 }
  | .mul => do
    let r ← chk (v1 * v2) s
    let s1 ← memWrite ea r s
    return { s1 with ip := s1.ip + 4 }
  | .inp =>
    match s.inSlot with
    | some x => do
      let s1 ← memWrite ea x s
      return { s1 with inSlot := none, ip := s1.ip + 2 }
    | none => return yieldWith .waitingInstruction none s
  | .out => return yieldWith .output (some v1) { s with ip := s.ip + 2 }
  | .jt =>
    if v1 ≠ 0 then
      if v2 < 0 then .error (.negativeAddress v2 s.ip) else return { s with ip := v2.toNat }
    else return { s with ip := s.ip + 3 }
  | .jf =>
    if v1 = 0 then
      if v2 < 0 then .error (.negativeAddress v2 s.ip) else return { s with ip := v2.toNat }
    else return { s with ip := s.ip + 3 }
  | .lt => do
    let s1 ← memWrite ea (if v1 < v2 then 1 else 0) s
    return { s1 with ip := s1.ip + 4 }
  | .eq => do
    let s1 ← memWrite ea (if v1 = v2 then 1 else 0) s
    return { s1 with ip := s1.ip + 4 }
  | .arb => do
    let r ← chk (s.rb + v1) s
    return { s with rb := r, ip := s.ip + 2 }
  | .hlt => return yieldWith .ended none s

/-- The destination mode check: `if d != none and m_d = 1: raise IllegalImmediateWrite(ip, d)`. -/
def pipelineDstCheck (f : Fields) (s : State) : Except Fault Unit :=
  match f.op.dstIndex with
  | none => .ok ()
  | some d =>
    if [f.m1, f.m2, f.m3][d - 1]? = some .immediate then .error (.illegalImmediateWrite s.ip d) else .ok ()

/-- `Decode(w)`, raising the fault of R53 with the word and `ip` (R97). -/
def pipelineDecode (w : Int) (s : State) : Except Fault Fields :=
  match decodeWord w with
  | .ok f => .ok f
  | .error .invalidOpcode => .error (.invalidOpcode w s.ip)
  | .error (.invalidAddressingMode k) => .error (.invalidAddressingMode w s.ip k)

/-- The destination's effective address, for an opcode that has one. -/
def pipelineDst (d : Option Nat) (eas : List (Option Nat)) : Nat :=
  match d with
  | some d => (eas[d - 1]?.getD none).getD 0
  | none => 0

/-- `Step()` of R70. -/
def pipelineStep (s : State) : Host.Outcome State Fault Refusal :=
  finish (do
    let w ← fetch s
    let f ← pipelineDecode w s
    pipelineDstCheck f s
    let (ps, s1) ← pipelineParams f.op.arity s
    let params := [f.m1, f.m2, f.m3].zipWith Param.mk ps
    let eas ← pipelineAddrs s1 params
    let (vs, s2) ← pipelineOperands f.op.dstIndex 1 (params.zip eas) s1
    pipelineExecute f.op (vs.getD 0 0) (vs.getD 1 0) (pipelineDst f.op.dstIndex eas) s2)

end Sys2Proof.Machine
end

