-- ==== Sys2Proof/Machine/Session.lean ====
section
/-! DEFINITION. The host's session with the block: what the host finds after each step, whichever way the step ended
(10_state.md R24, 40_execution_cycle.md R75, R78). -/

namespace Sys2Proof.Machine

/-- The state without the operation that was being served; inside a run call there is none to take away. -/
def dropServed (s : State) : State :=
  match s.running with
  | true => s
  | false => { s with requests := s.requests.tail }

/-- The state the host goes on with. A fault leaves the faulted instance (R24, R98); a refused operation takes no step and
is gone (R78; log 9). -/
def settle (s : State) : State :=
  match step s with
  | .next t => t
  | .fault f => abort f (dropServed s)
  | .refused _ => dropServed s

/-- The state after `n` steps of a session. -/
def session : Nat → State → State
  | 0, s => s
  | n + 1, s => session n (settle s)

end Sys2Proof.Machine
end

