-- ==== Sys2Proof/Safety.lean ====
section
/-! DEFINITION. What a sound state and a safe run are, and the words the statements about instructions are made of. -/

namespace Sys2Proof.Machine

/-- The invariant of the block: what 10_state.md R16 to R24 say its state always is. -/
structure State.Inv (s : State) : Prop where
  /-- The parameters are in the bounds of R5. -/
  cfgAdmissible : s.cfg.Admissible
  /-- The memory is in canonical form. -/
  memCanonical : s.mem.wf = true
  /-- "Every cell holds one word" (R16). -/
  cellsAreWords : ∀ a, s.cfg.InWord (s.mem.peek a)
  /-- The length "is bounded by `MAX_LEN`" (R16). -/
  lenBounded : s.mem.len ≤ s.cfg.maxLen
  /-- The largest value `ip` can take (R18). -/
  ipBounded : (s.ip : Int) ≤ max (wordMax s.cfg.wordWidth) ((s.cfg.maxLen : Int) + 3)
  /-- `rb` "is a signed word" (R20). -/
  rbIsWord : s.cfg.InWord s.rb
  /-- `in_slot` is "either empty or one word" (R23). -/
  slotIsWord : ∀ v, s.inSlot = some v → s.cfg.InWord v
  /-- "During a `run` call `st` is `Initial`" (R21), and no faulted instance runs (R78). -/
  runningIsInitial : s.running = true → s.st = .initial ∧ s.fault = none
  /-- The slot "exists only for the duration of one `run` call" (R23). -/
  idleSlotEmpty : s.running = false → s.inSlot = none

/-- A run that never faults, however long. -/
def NeverFaults (s : State) : Prop := ∀ n f, Sys2Proof.core.run n s ≠ .fault f

/-- The parameter words of an instruction with `n` parameters can be read: each address is below `MAX_LEN` (R37). -/
abbrev paramsFit (n : Nat) (s : State) : Prop := s.ip + n < s.cfg.maxLen

/-- The address a Position or Relative parameter designates, when it is not negative (30_encoding.md R58). -/
def addrOf (p : Param) (s : State) : Nat := (paramSum s.rb p).toNat

/-- A parameter's effective address exists: not negative, and below `MAX_LEN` (R58, R37, R38). -/
abbrev addrFits (p : Param) (s : State) : Prop :=
  0 ≤ paramSum s.rb p ∧ paramSum s.rb p < (s.cfg.maxLen : Int)

/-- A read parameter delivers a value: it is Immediate, or its address exists. -/
abbrev readable (p : Param) (s : State) : Prop := p.mode = .immediate ∨ addrFits p s

/-- A destination can be written: it is not Immediate (R60) and its address exists. -/
abbrev storable (p : Param) (s : State) : Prop := p.mode ≠ .immediate ∧ addrFits p s

/-- The value of a read parameter (30_encoding.md R57): the parameter word, or the word at its address. -/
def valueOf (p : Param) (s : State) : Int :=
  match p.mode with
  | .position => s.mem.peek (addrOf p s)
  | .immediate => p.word
  | .relative => s.mem.peek (addrOf p s)

/-- The length memory must have for a read parameter to be inside it; nothing for an Immediate one. -/
def reachOf (p : Param) (s : State) : Nat :=
  match p.mode with
  | .position => addrOf p s + 1
  | .immediate => 0
  | .relative => addrOf p s + 1

/-- The memory length after an instruction has read its `n ≥ 1` parameter words and its operands (R36, R37). -/
def lenAfterReads (s : State) (n : Nat) (reads : List Param) : Nat :=
  reads.foldl (fun l p => max l (reachOf p s)) (max s.mem.len (s.ip + n + 1))

/-- From `s` to `t`, memory was read and not written: every word reads as before, and the length is what the reads of the
parameter words and operands made it. -/
structure OnlyRead (n : Nat) (reads : List Param) (s t : State) : Prop where
  same : ∀ x, t.mem.peek x = s.mem.peek x
  len  : t.mem.len = lenAfterReads s n reads

/-- From `s` to `t`, the word `v` was stored at the destination's address and nowhere else. -/
structure StoredAt (n : Nat) (reads : List Param) (d : Param) (v : Int) (s t : State) : Prop where
  stored : t.mem.peek (addrOf d s) = v
  same   : ∀ x, x ≠ addrOf d s → t.mem.peek x = s.mem.peek x
  len    : t.mem.len = max (lenAfterReads s n reads) (addrOf d s + 1)

/-- The operands of a storing instruction can be read, and its destination is no literal and not below 0. -/
abbrev operandsReady (a b d : Param) (s : State) : Prop :=
  paramsFit 3 s ∧ readable a s ∧ readable b s ∧ d.mode ≠ .immediate ∧ 0 ≤ paramSum s.rb d

/-- An instruction stored the word `v` and went on to `ip + 4`, and changed nothing else. -/
abbrev storesAndGoesOn (i : Instr) (a b d : Param) (v : Int) (s : State) : Prop :=
  ∃ t, exec i s = .next t ∧ StoredAt 3 [a, b] d v s t ∧ t = { s with mem := t.mem, ip := s.ip + 4 }

/-- The block is inside a run call and has not faulted, so a step runs an instruction. -/
abbrev executing (s : State) : Prop := s.running = true ∧ s.fault = none

/-- The next state of an outcome, if it is one. -/
def nextOf : Host.Outcome State Fault Refusal → Option State
  | .next t => some t
  | .fault _ => none
  | .refused _ => none

end Sys2Proof.Machine
end

