-- ==== Sys2Proof/Certificates/Slice0/Obligations.lean ====
section
/-! DEFINITION. The statements for the provers. Each docstring names the rule of spec/ it formalises; where a clause is the
model's own choice the docstring says so and names the log entry. -/

open Sys2Proof Sys2Proof.Machine

/-! ## Encoding and decoding (30_encoding.md) -/

/-- R66: the instruction words of the source's programs: their fields, and the instruction with any parameter words. -/
def Obligations.SourceWordsDecodeAsListed : Prop :=
  ([1102, 104, 3, 8, 4, 99, 109, 204, 1001, 1008, 1006].map decodeWord =
    [.ok ⟨.mul, .immediate, .immediate, .position⟩, .ok ⟨.out, .immediate, .position, .position⟩,
      .ok ⟨.inp, .position, .position, .position⟩, .ok ⟨.eq, .position, .position, .position⟩,
      .ok ⟨.out, .position, .position, .position⟩, .ok ⟨.hlt, .position, .position, .position⟩,
      .ok ⟨.arb, .immediate, .position, .position⟩, .ok ⟨.out, .relative, .position, .position⟩,
      .ok ⟨.add, .position, .immediate, .position⟩, .ok ⟨.eq, .position, .immediate, .position⟩,
      .ok ⟨.jf, .position, .immediate, .position⟩]) ∧
  ∀ p q r : Int,
    decode 1102 [p, q, r] = .ok (.mul ⟨.immediate, p⟩ ⟨.immediate, q⟩ ⟨.position, r⟩) ∧
    decode 104 [p] = .ok (.out ⟨.immediate, p⟩) ∧
    decode 3 [p] = .ok (.inp ⟨.position, p⟩) ∧
    decode 8 [p, q, r] = .ok (.eq ⟨.position, p⟩ ⟨.position, q⟩ ⟨.position, r⟩) ∧
    decode 4 [p] = .ok (.out ⟨.position, p⟩) ∧
    decode 99 [] = .ok .hlt ∧
    decode 109 [p] = .ok (.arb ⟨.immediate, p⟩) ∧
    decode 204 [p] = .ok (.out ⟨.relative, p⟩) ∧
    decode 1001 [p, q, r] = .ok (.add ⟨.position, p⟩ ⟨.immediate, q⟩ ⟨.position, r⟩) ∧
    decode 1008 [p, q, r] = .ok (.eq ⟨.position, p⟩ ⟨.immediate, q⟩ ⟨.position, r⟩) ∧
    decode 1006 [p, q] = .ok (.jf ⟨.position, p⟩ ⟨.immediate, q⟩)

/-- R62: decoding the words of an instruction gives it back, with every mode and every parameter word, whatever follows it
in memory. -/
def Obligations.DecodingAnEncodingReturnsTheInstruction : Prop :=
  ∀ (i : Instr) (rest : List Int), decode i.word (i.params.map Param.word ++ rest) = .ok i

/-- R49, R62: a word decodes to the fields `op`, `m1`, `m2`, `m3` exactly when it is
`op + 100*m1 + 1000*m2 + 10000*m3`. -/
def Obligations.DecodableWordsAreTheDigitForms : Prop :=
  ∀ (w : Int) (f : Fields),
    decodeWord w = .ok f ↔
      w = (f.op.code : Int) + 100 * (f.m1.digit : Int) + 1000 * (f.m2.digit : Int) + 10000 * (f.m3.digit : Int)

/-- R53 to R55, R63: what the decoder answers for every word, the checks in the order of R53. The order, the negative
words and the high digits are the spec's decisions D6, D4 and D5 (log 13, log 14). -/
def Obligations.DecoderChecksInOrder : Prop :=
  ∀ w : Int,
    let opOk := w % 100 ∈ ([1, 2, 3, 4, 5, 6, 7, 8, 9, 99] : List Int)
    let modeOk := fun (place : Int) => w / place % 10 ∈ ([0, 1, 2] : List Int)
    (w < 0 → decodeWord w = .error .invalidOpcode) ∧
    (0 ≤ w → ¬opOk → decodeWord w = .error .invalidOpcode) ∧
    (0 ≤ w → opOk → ¬modeOk 100 → decodeWord w = .error (.invalidAddressingMode 1)) ∧
    (0 ≤ w → opOk → modeOk 100 → ¬modeOk 1000 → decodeWord w = .error (.invalidAddressingMode 2)) ∧
    (0 ≤ w → opOk → modeOk 100 → modeOk 1000 → ¬modeOk 10000 → decodeWord w = .error (.invalidAddressingMode 3)) ∧
    (0 ≤ w → opOk → modeOk 100 → modeOk 1000 → modeOk 10000 → w / 100000 ≠ 0 →
      decodeWord w = .error (.invalidAddressingMode 4)) ∧
    (0 ≤ w → opOk → modeOk 100 → modeOk 1000 → modeOk 10000 → w / 100000 = 0 →
      ∃ f, decodeWord w = .ok f ∧ (f.op.code : Int) = w % 100 ∧ (f.m1.digit : Int) = w / 100 % 10 ∧
        (f.m2.digit : Int) = w / 1000 % 10 ∧ (f.m3.digit : Int) = w / 10000 % 10)

/-- R56: the mode digits of parameters an opcode does not have are ignored once they are legal, and a digit that is not
legal is refused whatever the arity (the rule's own examples). -/
def Obligations.SpareModeDigitsAreIgnored : Prop :=
  (∀ (v w : Int) (f g : Fields) (ps : List Int), decodeWord v = .ok f → decodeWord w = .ok g → f.op = g.op →
    (1 ≤ f.op.arity → f.m1 = g.m1) → (2 ≤ f.op.arity → f.m2 = g.m2) → (3 ≤ f.op.arity → f.m3 = g.m3) →
    decode v ps = decode w ps) ∧
  (∀ (w : Int) (f : Fields), decodeWord w = .ok f →
    ∀ place ∈ ([100, 1000, 10000] : List Int), w / place % 10 ∈ ([0, 1, 2] : List Int)) ∧
  (∀ w ∈ ([99, 199, 299, 1099, 22299] : List Int), decode w [] = .ok .hlt) ∧
  decode 399 [] = .error (.invalidAddressingMode 1)

/-! ## The step and its fetch (20_memory.md R39, 40_execution_cycle.md R70) -/

/-- R70: inside a run call, when the words at `ip` decode to `i`, the step is `exec i`, and nothing is done around it. R70
has the parameter-word reads and the checks outside `Execute`; that the instruction carries its parameter words and that
`exec` makes their accesses is the model's reading (log 10), and that words past the end read 0 is the spec's decision D7
(log 15). -/
def Obligations.StepRunsTheDecodedInstruction : Prop :=
  ∀ (s : State) (i : Instr), executing s → s.ip < s.mem.len →
    decode (s.mem.peek s.ip) [s.mem.peek (s.ip + 1), s.mem.peek (s.ip + 2), s.mem.peek (s.ip + 3)] = .ok i →
    step s = exec i s

/-- R39, R97: a fetch at or past the end faults `OutOfBounds` with `ip` and `len`, and does not extend memory; below the end
it is the word at `ip`. -/
def Obligations.FetchPastTheEndFaults : Prop :=
  ∀ s : State,
    (s.mem.len ≤ s.ip → fetch s = .error (.outOfBounds s.ip s.mem.len) ∧
      (executing s → step s = .fault (.outOfBounds s.ip s.mem.len))) ∧
    (s.ip < s.mem.len → fetch s = .ok (s.mem.peek s.ip))

/-- R53, R97: a word that does not decode faults with the word, `ip` and, for a mode digit, the parameter index. The
recorded values are the spec's decision D18 (log 25). -/
def Obligations.UndecodableWordFaults : Prop :=
  ∀ s : State, executing s → s.ip < s.mem.len →
    (decodeWord (s.mem.peek s.ip) = .error .invalidOpcode → step s = .fault (.invalidOpcode (s.mem.peek s.ip) s.ip)) ∧
    (∀ k, decodeWord (s.mem.peek s.ip) = .error (.invalidAddressingMode k) →
      step s = .fault (.invalidAddressingMode (s.mem.peek s.ip) s.ip k))

/-- R70: the machine's step is the common pipeline as the rule writes it, in every state inside a run call, faults and
their recorded values included, so that it makes no difference that an instruction carries its parameter words (log 10).
The order of the stages and the extending reads of parameter words are the spec's decisions D6 and D7 (log 14, log 15). -/
def Obligations.StepIsTheCommonPipeline : Prop :=
  ∀ s : State, executing s → step s = pipelineStep s

/-! ## The instructions (41_arithmetic.md to 46_end.md): when each completes and with what result -/

/-- R87: ADD stores the exact sum; a sum that is no word faults `ArithmeticOverflow`; a destination at or past MAX_LEN
faults `CapacityExceeded`. Both faults are the spec's decisions D2 and D3 (log 12, log 2). -/
def Obligations.AddStoresTheExactSum : Prop :=
  ∀ (s : State) (a b d : Param), s.mem.wf = true → operandsReady a b d s →
    (s.cfg.InWord (valueOf a s + valueOf b s) → addrOf d s < s.cfg.maxLen →
      storesAndGoesOn (.add a b d) a b d (valueOf a s + valueOf b s) s) ∧
    (¬s.cfg.InWord (valueOf a s + valueOf b s) →
      exec (.add a b d) s = .fault (.arithmeticOverflow (valueOf a s + valueOf b s) s.ip)) ∧
    (s.cfg.InWord (valueOf a s + valueOf b s) → s.cfg.maxLen ≤ addrOf d s →
      exec (.add a b d) s = .fault (.capacityExceeded (addrOf d s) s.ip))

/-- R88: MUL stores the exact product, with the faults of R87. Both faults are the spec's decisions D2 and D3 (log 12, log
2). -/
def Obligations.MulStoresTheExactProduct : Prop :=
  ∀ (s : State) (a b d : Param), s.mem.wf = true → operandsReady a b d s →
    (s.cfg.InWord (valueOf a s * valueOf b s) → addrOf d s < s.cfg.maxLen →
      storesAndGoesOn (.mul a b d) a b d (valueOf a s * valueOf b s) s) ∧
    (¬s.cfg.InWord (valueOf a s * valueOf b s) →
      exec (.mul a b d) s = .fault (.arithmeticOverflow (valueOf a s * valueOf b s) s.ip)) ∧
    (s.cfg.InWord (valueOf a s * valueOf b s) → s.cfg.maxLen ≤ addrOf d s →
      exec (.mul a b d) s = .fault (.capacityExceeded (addrOf d s) s.ip))

/-- R93: LT stores 1 when `a < b` as signed words, else 0; it never overflows. The fault is the spec's decision D3 (log
2). -/
def Obligations.LessThanStoresOneOrZero : Prop :=
  ∀ (s : State) (a b d : Param), s.mem.wf = true → operandsReady a b d s →
    (addrOf d s < s.cfg.maxLen →
      (valueOf a s < valueOf b s → storesAndGoesOn (.lt a b d) a b d 1 s) ∧
      (valueOf b s ≤ valueOf a s → storesAndGoesOn (.lt a b d) a b d 0 s)) ∧
    (s.cfg.maxLen ≤ addrOf d s → exec (.lt a b d) s = .fault (.capacityExceeded (addrOf d s) s.ip))

/-- R94: EQ stores 1 when `a = b`, else 0; it never overflows. The fault is the spec's decision D3 (log 2). -/
def Obligations.EqualsStoresOneOrZero : Prop :=
  ∀ (s : State) (a b d : Param), s.mem.wf = true → operandsReady a b d s →
    (addrOf d s < s.cfg.maxLen →
      (valueOf a s = valueOf b s → storesAndGoesOn (.eq a b d) a b d 1 s) ∧
      (valueOf a s ≠ valueOf b s → storesAndGoesOn (.eq a b d) a b d 0 s)) ∧
    (s.cfg.maxLen ≤ addrOf d s → exec (.eq a b d) s = .fault (.capacityExceeded (addrOf d s) s.ip))

/-- R89: Input with a full slot stores the word, empties the slot and goes to `ip + 2`; a destination at or past MAX_LEN
faults when the word would be stored. The fault is the spec's decision D3 (log 2). -/
def Obligations.InputStoresAndEmptiesTheSlot : Prop :=
  ∀ (s : State) (d : Param) (x : Int), s.mem.wf = true → paramsFit 1 s → d.mode ≠ .immediate →
    0 ≤ paramSum s.rb d → s.inSlot = some x →
    (addrOf d s < s.cfg.maxLen →
      ∃ t, exec (.inp d) s = .next t ∧ StoredAt 1 [] d x s t ∧
        t = { s with mem := t.mem, ip := s.ip + 2, inSlot := none }) ∧
    (s.cfg.maxLen ≤ addrOf d s → exec (.inp d) s = .fault (.capacityExceeded (addrOf d s) s.ip))

/-- R73: Input with an empty slot yields `None` in `WaitingInstruction`, `ip` not advanced and no word of memory changed
(its parameter-word read may have extended memory). -/
def Obligations.InputWithoutAValueStalls : Prop :=
  ∀ (s : State) (d : Param), paramsFit 1 s → d.mode ≠ .immediate → 0 ≤ paramSum s.rb d → s.inSlot = none →
    ∃ t, exec (.inp d) s = .next t ∧ OnlyRead 1 [] s t ∧
      t = { s with
        mem := t.mem, st := .waitingInstruction, running := false, responses := s.responses ++ [.ok none] }

/-- R89 with R60 and R58: a bad destination of Input faults whether or not a value is available. That is the spec's
decision D10 (log 17). -/
def Obligations.InputDestinationIsCheckedFirst : Prop :=
  ∀ (s : State) (d : Param),
    (d.mode = .immediate → exec (.inp d) s = .fault (.illegalImmediateWrite s.ip 1)) ∧
    (d.mode ≠ .immediate → paramsFit 1 s → paramSum s.rb d < 0 →
      exec (.inp d) s = .fault (.negativeAddress (paramSum s.rb d) s.ip))

/-- R90 and R72: Output goes to `ip + 2`, sets `Output`, ends the call and responds `Ok(Some(a))`. The unconsumed input is
discarded with the call (R23, log 11). -/
def Obligations.OutputYieldsItsOperand : Prop :=
  ∀ (s : State) (a : Param), paramsFit 1 s → readable a s →
    ∃ t, exec (.out a) s = .next t ∧ OnlyRead 1 [a] s t ∧
      t = { s with
        mem := t.mem, ip := s.ip + 2, st := .output, inSlot := none, running := false,
        responses := s.responses ++ [.ok (some (valueOf a s))] }

/-- R91: JT jumps to `b` when `a ≠ 0` (a negative target faults at the jump), else goes to `ip + 3`. The fault at the jump
is the spec's decision D8 (log 16). -/
def Obligations.JumpIfTrueJumpsOnNonZero : Prop :=
  ∀ (s : State) (a b : Param), paramsFit 2 s → readable a s → readable b s →
    (valueOf a s ≠ 0 → 0 ≤ valueOf b s →
      ∃ t, exec (.jt a b) s = .next t ∧ OnlyRead 2 [a, b] s t ∧ (t.ip : Int) = valueOf b s ∧
        t = { s with mem := t.mem, ip := t.ip }) ∧
    (valueOf a s ≠ 0 → valueOf b s < 0 → exec (.jt a b) s = .fault (.negativeAddress (valueOf b s) s.ip)) ∧
    (valueOf a s = 0 →
      ∃ t, exec (.jt a b) s = .next t ∧ OnlyRead 2 [a, b] s t ∧ t = { s with mem := t.mem, ip := s.ip + 3 })

/-- R92: JF jumps to `b` when `a = 0` (a negative target faults at the jump), else goes to `ip + 3`. The fault at the jump
is the spec's decision D8 (log 16). -/
def Obligations.JumpIfFalseJumpsOnZero : Prop :=
  ∀ (s : State) (a b : Param), paramsFit 2 s → readable a s → readable b s →
    (valueOf a s = 0 → 0 ≤ valueOf b s →
      ∃ t, exec (.jf a b) s = .next t ∧ OnlyRead 2 [a, b] s t ∧ (t.ip : Int) = valueOf b s ∧
        t = { s with mem := t.mem, ip := t.ip }) ∧
    (valueOf a s = 0 → valueOf b s < 0 → exec (.jf a b) s = .fault (.negativeAddress (valueOf b s) s.ip)) ∧
    (valueOf a s ≠ 0 →
      ∃ t, exec (.jf a b) s = .next t ∧ OnlyRead 2 [a, b] s t ∧ t = { s with mem := t.mem, ip := s.ip + 3 })

/-- R95: ARB adds its operand, read with the old relative base, to the relative base; a sum that is no word faults
`ArithmeticOverflow`. The fault is the spec's decision D2 (log 12). -/
def Obligations.AdjustRelativeBaseAddsToTheBase : Prop :=
  ∀ (s : State) (a : Param), paramsFit 1 s → readable a s →
    (s.cfg.InWord (s.rb + valueOf a s) →
      ∃ t, exec (.arb a) s = .next t ∧ OnlyRead 1 [a] s t ∧
        t = { s with mem := t.mem, ip := s.ip + 2, rb := s.rb + valueOf a s }) ∧
    (¬s.cfg.InWord (s.rb + valueOf a s) →
      exec (.arb a) s = .fault (.arithmeticOverflow (s.rb + valueOf a s) s.ip))

/-- R96 and R74: EndProgram sets `Ended`, ends the call with `Ok(None)` and leaves `ip` and memory as they are, in every
state. That an unconsumed input is discarded is the spec's decision D9 (log 11). -/
def Obligations.EndProgramEndsTheCall : Prop :=
  ∀ s : State,
    exec .hlt s = .next { s with
      st := .ended, inSlot := none, running := false, responses := s.responses ++ [.ok none] }

/-- R65: each pseudo-instruction does what its expansion does: MOV and CLR store a value, NEG the negated value, NOT01 the
test for 0, and JMP always jumps. The pseudo-instructions are the spec's own notation, D20 (log 26). -/
def Obligations.PseudoInstructionsDoAsNamed : Prop :=
  ∀ (s : State) (p d : Param), s.cfg.Admissible → s.mem.wf = true → paramsFit 3 s → readable p s → storable d s →
    s.cfg.InWord (valueOf p s) →
    storesAndGoesOn (.mov p d) p (.lit 0) d (valueOf p s) s ∧
    storesAndGoesOn (.clr d) (.lit 0) (.lit 0) d 0 s ∧
    (s.cfg.InWord (-valueOf p s) → storesAndGoesOn (.neg p d) p (.lit (-1)) d (-valueOf p s) s) ∧
    (valueOf p s = 0 → storesAndGoesOn (.not01 p d) p (.lit 0) d 1 s) ∧
    (valueOf p s ≠ 0 → storesAndGoesOn (.not01 p d) p (.lit 0) d 0 s) ∧
    (0 ≤ valueOf p s → ∃ t, exec (.jmp p) s = .next t ∧ (t.ip : Int) = valueOf p s ∧ OnlyRead 2 [p] s t ∧
      t = { s with mem := t.mem, ip := t.ip })

/-! ## Frames -/

/-- R27, R36, R38: a storing instruction that completes changes the word at its destination's address and no other word of
memory; memory's length becomes the one its reads and its store make it; of the registers only `ip` changes. -/
def Obligations.StoringInstructionsFrame : Prop :=
  ∀ (s t : State) (a b d : Param),
    exec (.add a b d) s = .next t ∨ exec (.mul a b d) s = .next t ∨ exec (.lt a b d) s = .next t ∨
      exec (.eq a b d) s = .next t →
    (∀ x, x ≠ (paramSum s.rb d).toNat → t.mem.peek x = s.mem.peek x) ∧
    t.mem.len = max (lenAfterReads s 3 [a, b]) ((paramSum s.rb d).toNat + 1) ∧
    t.cfg = s.cfg ∧ t.rb = s.rb ∧ t.st = s.st ∧ t.inSlot = s.inSlot ∧ t.fault = s.fault ∧
    t.running = s.running ∧ t.requests = s.requests ∧ t.responses = s.responses

/-- R27, R73, R89: Input changes the word at its destination's address and no other, and no word at all when it stalls; the
slot and `ip` are its own, and a stall ends the call. -/
def Obligations.InputFrame : Prop :=
  ∀ (s t : State) (d : Param), exec (.inp d) s = .next t →
    (∀ x, x ≠ (paramSum s.rb d).toNat → t.mem.peek x = s.mem.peek x) ∧
    (s.inSlot = none → (∀ x, t.mem.peek x = s.mem.peek x) ∧ t.ip = s.ip) ∧
    (s.inSlot ≠ none → t.st = s.st ∧ t.running = s.running ∧ t.responses = s.responses) ∧
    t.inSlot = none ∧ t.cfg = s.cfg ∧ t.rb = s.rb ∧ t.fault = s.fault ∧ t.requests = s.requests

/-- R27: an instruction with no destination changes no word of memory. The jumps change `ip` alone, ARB `ip` and the relative
base, OUT and HLT end the call. -/
def Obligations.NonStoringInstructionsFrame : Prop :=
  ∀ (s t : State) (a b : Param),
    (exec (.jt a b) s = .next t ∨ exec (.jf a b) s = .next t →
      (∀ x, t.mem.peek x = s.mem.peek x) ∧ t.cfg = s.cfg ∧ t.rb = s.rb ∧ t.st = s.st ∧ t.inSlot = s.inSlot ∧
      t.fault = s.fault ∧ t.running = s.running ∧ t.requests = s.requests ∧ t.responses = s.responses) ∧
    (exec (.arb a) s = .next t →
      (∀ x, t.mem.peek x = s.mem.peek x) ∧ t.cfg = s.cfg ∧ t.st = s.st ∧ t.inSlot = s.inSlot ∧
      t.fault = s.fault ∧ t.running = s.running ∧ t.requests = s.requests ∧ t.responses = s.responses) ∧
    (exec (.out a) s = .next t ∨ exec .hlt s = .next t →
      (∀ x, t.mem.peek x = s.mem.peek x) ∧ t.cfg = s.cfg ∧ t.rb = s.rb ∧ t.fault = s.fault ∧
      t.requests = s.requests)

/-! ## Faults: order, kinds, and what they leave (60_exceptions.md) -/

/-- R60, R70, R100: an Immediate destination faults before anything else of the instruction is looked at. The order is the
spec's decision D6 (log 14). -/
def Obligations.ImmediateDestinationFaultsFirst : Prop :=
  ∀ (s : State) (a b d : Param), d.mode = .immediate →
    exec (.add a b d) s = .fault (.illegalImmediateWrite s.ip 3) ∧
    exec (.mul a b d) s = .fault (.illegalImmediateWrite s.ip 3) ∧
    exec (.lt a b d) s = .fault (.illegalImmediateWrite s.ip 3) ∧
    exec (.eq a b d) s = .fault (.illegalImmediateWrite s.ip 3) ∧
    exec (.inp d) s = .fault (.illegalImmediateWrite s.ip 1)

/-- R37, R59, R70, R99, R100: a parameter word at or past MAX_LEN faults `CapacityExceeded` at the first such address,
before any effective address is formed; and when the parameter words and the effective addresses pass their checks, the
lowest read parameter whose effective address is at or past MAX_LEN faults `CapacityExceeded` with that address, at its
operand read, before anything is executed. The fault and the order are the spec's decisions D3 and D6 (log 2, log 14). -/
def Obligations.ParameterWordPastCapacityFaults : Prop :=
  (∀ (s : State) (i : Instr), i.params ≠ [] → (∀ d, i.dst = some d → d.mode ≠ .immediate) →
    ¬paramsFit i.params.length s →
    exec i s = .fault (.capacityExceeded (max (s.ip + 1) s.cfg.maxLen) s.ip)) ∧
  (∀ (s : State) (i : Instr) (k : Nat) (p : Param),
    paramsFit i.params.length s → (∀ d, i.dst = some d → d.mode ≠ .immediate) →
    (∀ q ∈ i.params, q.mode = .immediate ∨ 0 ≤ paramSum s.rb q) →
    i.reads[k]? = some p → p.mode ≠ .immediate → (s.cfg.maxLen : Int) ≤ paramSum s.rb p →
    (∀ j q, j < k → i.reads[j]? = some q → readable q s) →
    exec i s = .fault (.capacityExceeded (addrOf p s) s.ip))

/-- R58, R70, R100: of the effective addresses below 0 the one of the lowest parameter is reported, and it is reported
before any operand is read. The order is the spec's decision D6 (log 14). -/
def Obligations.LowestNegativeAddressIsReported : Prop :=
  ∀ (s : State) (i : Instr) (k : Nat) (p : Param),
    paramsFit i.params.length s → (∀ d, i.dst = some d → d.mode ≠ .immediate) →
    i.params[k]? = some p → p.mode ≠ .immediate → paramSum s.rb p < 0 →
    (∀ j q, j < k → i.params[j]? = some q → q.mode = .immediate ∨ 0 ≤ paramSum s.rb q) →
    exec i s = .fault (.negativeAddress (paramSum s.rb p) s.ip)

/-- R99, R112: the kinds of fault each instruction can end in once it is decoded; and no instruction is refused. Overflow,
capacity and the fault of a jump are the spec's decisions D2, D3 and D8 (log 12, log 2, log 16). -/
def Obligations.FaultKindsOfEachInstruction : Prop :=
  ∀ (s : State) (i : Instr),
    (∀ r, exec i s ≠ .refused r) ∧
    (∀ f, exec i s = .fault f →
      match i with
      | .add _ _ _ | .mul _ _ _ =>
        f.kind ∈ [FaultKind.illegalImmediateWrite, .capacityExceeded, .negativeAddress, .arithmeticOverflow]
      | .inp _ | .lt _ _ _ | .eq _ _ _ =>
        f.kind ∈ [FaultKind.illegalImmediateWrite, .capacityExceeded, .negativeAddress]
      | .arb _ => f.kind ∈ [FaultKind.capacityExceeded, .negativeAddress, .arithmeticOverflow]
      | .out _ | .jt _ _ | .jf _ _ => f.kind ∈ [FaultKind.capacityExceeded, .negativeAddress]
      | .hlt => False)

/-- R24, R75, R98, R103: a fault inside a run call sets `fault`, ends the call with the response `Err(fault)`, and has
written no memory word, not `ip` and not `rb`. R75 leaves `st`, `ip`, `rb` and `mem` unspecified after a fault but for
what the faulting instruction has not written: that they keep the values they had before the instruction, memory's length
among them, is the model's choice (log 9). The slot is empty, as the value not consumed is gone with the call (D9, log
11). -/
def Obligations.FaultEndsTheCallAndIsLatched : Prop :=
  ∀ (s : State) (f : Fault), executing s → step s = .fault f →
    (settle s).fault = some f.kind ∧ (settle s).running = false ∧
    (settle s).responses = s.responses ++ [.err f] ∧
    (settle s).mem = s.mem ∧ (settle s).ip = s.ip ∧ (settle s).rb = s.rb ∧ (settle s).requests = s.requests ∧
    (settle s).st = s.st ∧ (settle s).inSlot = none ∧ (settle s).cfg = s.cfg

/-- R78: a `run`, `state`, `peek` or `poke` on a faulted instance is refused and takes no step. The refusal is the spec's
decision D11 (log 18), and that the host's queue loses the request is the model's choice (log 9). -/
def Obligations.FaultedInstanceRefusesOperations : Prop :=
  ∀ (s : State) (r : Request) (rest : List Request), s.fault ≠ none → s.running = false → s.requests = r :: rest →
    (∃ v, r = .run v) ∨ r = .state ∨ r = .peek ∨ (∃ a v, r = .poke a v) →
    step s = .refused .faultedInstance ∧ settle s = { s with requests := rest }

/-- R24: `fault` "is never cleared": however many steps follow, without a load of a new instance a faulted instance keeps
its fault, its registers and its memory, and gives no response. The refusal of every later operation is the spec's
decision D11 (log 18). -/
def Obligations.FaultIsNeverCleared : Prop :=
  ∀ (s : State) (n : Nat), s.fault ≠ none → s.running = false →
    (∀ r ∈ s.requests, (∀ image, r ≠ .load image) ∧ (∀ text, r ≠ .new text)) →
    (session n s).fault = s.fault ∧ (session n s).mem = s.mem ∧ (session n s).ip = s.ip ∧
    (session n s).rb = s.rb ∧ (session n s).responses = s.responses

/-! ## Memory (20_memory.md) -/

/-- R36: `Extend(a)` past the end makes the length `a + 1` with every new cell 0, and below the end does nothing; it changes
no word. -/
def Obligations.ExtendZeroFills : Prop :=
  ∀ (m : Memory) (a : Nat), m.wf = true →
    (m.len ≤ a → (m.extend a).len = a + 1 ∧ ∀ x, m.len ≤ x → x ≤ a → (m.extend a).peek x = 0) ∧
    (a < m.len → m.extend a = m) ∧
    (∀ x, (m.extend a).peek x = m.peek x)

/-- R37, R40: `MemRead` faults `CapacityExceeded` at or past MAX_LEN; below it, it answers the word, 0 past the end,
leaves the length at least `a + 1`, and a second read answers the same and changes nothing. The fault is the spec's
decision D3 (log 2). -/
def Obligations.ReadAnswersTheWordAndExtends : Prop :=
  ∀ (s : State) (a : Nat), s.mem.wf = true →
    (s.cfg.maxLen ≤ a → memRead a s = .error (.capacityExceeded a s.ip)) ∧
    (a < s.cfg.maxLen →
      ∃ t, memRead a s = .ok (s.mem.peek a, t) ∧ (s.mem.len ≤ a → s.mem.peek a = 0 ∧ t.mem.len = a + 1) ∧
        (a < s.mem.len → t = s) ∧ (∀ x, t.mem.peek x = s.mem.peek x) ∧ t = { s with mem := t.mem } ∧
        memRead a t = .ok (s.mem.peek a, t))

/-- R38: `MemWrite` faults `CapacityExceeded` at or past MAX_LEN; below it, the cell at `a` holds `v`, no other word
changes, cells added hold 0, and the length is at least `a + 1`. The fault is the spec's decision D3 (log 2). -/
def Obligations.WriteChangesOneCell : Prop :=
  ∀ (s : State) (a : Nat) (v : Int), s.mem.wf = true →
    (s.cfg.maxLen ≤ a → memWrite a v s = .error (.capacityExceeded a s.ip)) ∧
    (a < s.cfg.maxLen →
      ∃ t, memWrite a v s = .ok t ∧ t.mem.peek a = v ∧ (∀ x, x ≠ a → t.mem.peek x = s.mem.peek x) ∧
        (∀ x, s.mem.len ≤ x → x < a → t.mem.peek x = 0) ∧ t.mem.len = max s.mem.len (a + 1) ∧
        t = { s with mem := t.mem })

/-- R48: two memories in canonical form with the same length and the same words are the same data. The canonical form is
the model's choice (log 4). -/
def Obligations.CanonicalMemoriesAreExtensional : Prop :=
  ∀ m m' : Memory, m.wf = true → m'.wf = true → m.len = m'.len → (∀ x, m.peek x = m'.peek x) → m = m'

/-- R45: a word an instruction stores, or a poke writes, is the word the next fetch at that address finds. That reads come
before the write is the spec's decision D16 (log 24). -/
def Obligations.StoredWordIsFetched : Prop :=
  (∀ (s t : State) (a b d : Param), s.mem.wf = true →
    (exec (.add a b d) s = .next t → fetch { t with ip := addrOf d s } = .ok (valueOf a s + valueOf b s)) ∧
    (exec (.mul a b d) s = .next t → fetch { t with ip := addrOf d s } = .ok (valueOf a s * valueOf b s)) ∧
    (exec (.lt a b d) s = .next t →
      fetch { t with ip := addrOf d s } = .ok (if valueOf a s < valueOf b s then 1 else 0)) ∧
    (exec (.eq a b d) s = .next t →
      fetch { t with ip := addrOf d s } = .ok (if valueOf a s = valueOf b s then 1 else 0))) ∧
  (∀ (s t : State) (d : Param) (x : Int), s.mem.wf = true → s.inSlot = some x → exec (.inp d) s = .next t →
    fetch { t with ip := addrOf d s } = .ok x) ∧
  (∀ (s t : State) (a : Nat) (v : Int), s.mem.wf = true → servePoke a v s = .next t → fetch { t with ip := a } = .ok v)

/-- R16: the length never shrinks, but where a load makes a new instance. -/
def Obligations.MemoryNeverShrinks : Prop :=
  ∀ s t : State, step s = .next t →
    (s.running = false → ∀ r rest, s.requests = r :: rest → (∀ image, r ≠ .load image) ∧ (∀ text, r ≠ .new text)) →
    s.mem.len ≤ t.mem.len

/-! ## Reset and load (10_state.md R30, 70_reset_and_hazards.md R113) -/

/-- R30: the state after the load of a program image, all of it. R30 speaks of an image of at least one word; that the
empty image may be loaded too is the model's choice, which R113 allows (log 5). -/
def Obligations.LoadedStateIsTheResetState : Prop :=
  ∀ (cfg : Config) (image : List Int),
    (State.load cfg image).mem.len = image.length ∧
    (∀ i, (h : i < image.length) → (State.load cfg image).mem.peek i = image[i]) ∧
    (State.load cfg image).ip = 0 ∧ (State.load cfg image).rb = 0 ∧ (State.load cfg image).st = .initial ∧
    (State.load cfg image).inSlot = none ∧ (State.load cfg image).fault = none

/-- R113: `load` makes a new instance from any image of words that fits MAX_LEN, whatever became of the old one; R114:
`new` does the same with the image its text lists. That the host's queue and record go on is the model's choice (log 6,
log 7). -/
def Obligations.LoadMakesAFreshInstance : Prop :=
  ∀ (s : State) (image : List Int) (rest : List Request), s.running = false →
    (∀ v ∈ image, s.cfg.InWord v) → image.length ≤ s.cfg.maxLen →
    (s.requests = .load image :: rest →
      step s = .next { State.load s.cfg image with requests := rest, responses := s.responses }) ∧
    (∀ text, s.requests = .new text :: rest → parseListing s.cfg.wordWidth text = .ok image →
      step s = .next { State.load s.cfg image with requests := rest, responses := s.responses })

/-- R64, R114: the loader reads back every listing: the words of a program, in address order, separated by commas. The
grammar is the spec's decision D22 (log 22). -/
def Obligations.LoaderReadsBackListings : Prop :=
  ∀ (W : Nat) (image : List Int), image ≠ [] → (∀ v ∈ image, IsWord W v) →
    parseListing W (renderListing image) = .ok image

/-- R114: the loader's own examples, at W = 64. The grammar is the spec's decision D22 (log 22). -/
def Obligations.LoaderExamples : Prop :=
  parseListing 64 "1,0,0,3,99".toList = .ok [1, 0, 0, 3, 99] ∧
  parseListing 64 " 1, 0,0,3 ,99\n".toList = .ok [1, 0, 0, 3, 99] ∧
  parseListing 64 "1,,2".toList = .error [] ∧
  parseListing 64 "".toList = .error [] ∧
  parseListing 64 "1,x".toList = .error ['x'] ∧
  parseListing 64 "9223372036854775808".toList = .error "9223372036854775808".toList

/-! ## The run transaction and the host's operations (40_execution_cycle.md) -/

/-- R68: `run(input)` on an instance that has not faulted sets `Initial`, loads the slot and starts executing; memory,
`ip` and `rb` carry over. The queue and the run flag are the model's own (log 6, log 8). -/
def Obligations.RunStartsTheTransaction : Prop :=
  ∀ (s : State) (input : Option Int) (rest : List Request), s.running = false → s.fault = none →
    s.requests = .run input :: rest → (∀ v, input = some v → s.cfg.InWord v) →
    step s = .next { s with st := .initial, inSlot := input, running := true, requests := rest }

/-- R86: a run call that responds `Ok(None)` leaves `WaitingInstruction` or `Ended`, one that responds `Ok(Some(v))` leaves
`Output`; and a call that goes on has given no response. -/
def Obligations.ResponseContract : Prop :=
  ∀ s t : State, executing s → step s = .next t →
    (t.running = false →
      ∃ v, t.responses = s.responses ++ [.ok v] ∧
        (v = none → t.st = .waitingInstruction ∨ t.st = .ended) ∧ (∀ x, v = some x → t.st = .output)) ∧
    (t.running = true → t.responses = s.responses ∧ t.st = s.st)

/-- R81, R23: inside a call an empty slot stays empty, and the slot is empty once the call has ended. That a value not
consumed is discarded is the spec's decision D9 (log 11). -/
def Obligations.OneInputForACall : Prop :=
  ∀ s t : State, executing s → step s = .next t →
    (s.inSlot = none → t.inSlot = none) ∧ (t.running = false → t.inSlot = none) ∧
    (∀ x, s.inSlot = some x → t.inSlot = some x ∨ t.inSlot = none)

/-- R77, R96: a run call on an instance stopped at an EndProgram word executes it again: `Ok(None)`, `Ended`, nothing else
changed, and the input given is lost. Both are the spec's decisions D12 and D9 (log 19, log 11). -/
def Obligations.RunAfterEndEndsAgain : Prop :=
  ∀ (s : State) (input : Option Int) (rest : List Request), s.running = false → s.fault = none →
    s.requests = .run input :: rest → (∀ v, input = some v → s.cfg.InWord v) →
    s.ip < s.mem.len → decode (s.mem.peek s.ip) (followingWords s) = .ok .hlt →
    session 2 s = { s with
      st := .ended, inSlot := none, requests := rest, responses := s.responses ++ [.ok none] }

/-- R76: a jump to itself never responds: however many steps are run, the call is still executing, in the same state. -/
def Obligations.JumpToItselfNeverResponds : Prop :=
  ∀ (s : State) (c : Int), executing s → s.ip + 2 < s.mem.len → s.ip + 2 < s.cfg.maxLen →
    (s.mem.peek s.ip = 1105 ∧ c ≠ 0 ∨ s.mem.peek s.ip = 1106 ∧ c = 0) →
    s.mem.peek (s.ip + 1) = c → s.mem.peek (s.ip + 2) = (s.ip : Int) →
    ∀ n, Sys2Proof.core.run n s = .next s

/-- R84: `poke(a, v)` between calls sets the one cell `a` for `0 <= a < len`, and changes neither the length, `ip`, `rb`
nor `st`; outside that range it is refused. The range and the time are the spec's decision D13 (log 20). -/
def Obligations.PokeSetsOneCell : Prop :=
  ∀ (s : State) (a v : Int) (rest : List Request), s.running = false → s.fault = none → s.mem.wf = true →
    s.requests = .poke a v :: rest → s.cfg.InWord v →
    (0 ≤ a → a < (s.mem.len : Int) →
      ∃ t, step s = .next t ∧ t.mem.peek a.toNat = v ∧ (∀ x, x ≠ a.toNat → t.mem.peek x = s.mem.peek x) ∧
        t.mem.len = s.mem.len ∧ t = { s with mem := t.mem, requests := rest }) ∧
    (a < 0 ∨ (s.mem.len : Int) ≤ a → step s = .refused (.pokeOutOfRange a))

/-- R80, R83: `state` responds the value of `st` and `peek` the whole memory, and they change nothing. The queue, the
record, and the canonical sparse memory as the response to peek are the model's choices (log 6, log 7, log 26). -/
def Obligations.StateAndPeekOnlyRespond : Prop :=
  ∀ (s : State) (rest : List Request), s.running = false → s.fault = none →
    (s.requests = .state :: rest → step s = .next { s with requests := rest, responses := s.responses ++ [.state s.st] }) ∧
    (s.requests = .peek :: rest →
      step s = .next { s with requests := rest, responses := s.responses ++ [.memory s.mem] })

/-- R111: between run calls, with no operation pending, the block is idle and all its state survives. That an idle step
answers the same state is the model's choice (log 6). -/
def Obligations.IdleBlockKeepsItsState : Prop :=
  ∀ s : State, s.running = false → s.requests = [] → ∀ n, session n s = s

/-! ## Whole-machine rules -/

/-- R20: the relative base is written only by AdjustRelativeBase (and by the load of a new instance). -/
def Obligations.OnlyAdjustRelativeBaseWritesTheBase : Prop :=
  ∀ s t : State, step s = .next t → t.rb ≠ s.rb →
    (executing s ∧ ∃ a, fetchInstr s = .ok (.arb a) ∧ t.rb = s.rb + valueOf a s) ∨
    (s.running = false ∧ ∃ r rest, s.requests = r :: rest ∧ ((∃ image, r = .load image) ∨ ∃ text, r = .new text))

/-- R21: `st` changes only at the start of a run call, at Output, at a stalled Input, at EndProgram, and at a load. -/
def Obligations.OnlyTheListedEventsWriteSt : Prop :=
  ∀ s t : State, step s = .next t → t.st ≠ s.st →
    (executing s ∧ ∃ i, fetchInstr s = .ok i ∧
      ((∃ a, i = .out a) ∧ t.st = .output ∨ (∃ d, i = .inp d) ∧ s.inSlot = none ∧ t.st = .waitingInstruction ∨
        i = .hlt ∧ t.st = .ended)) ∨
    (s.running = false ∧ t.st = .initial ∧ ∃ r rest, s.requests = r :: rest ∧
      ((∃ v, r = .run v) ∨ (∃ image, r = .load image) ∨ ∃ text, r = .new text))

/-- R17: `ip` is written only by the execution engine (and by the load of a new instance): an instruction that completes
advances it by its length, jumps, or, for a stalled Input and EndProgram, leaves it. -/
def Obligations.OnlyTheEngineWritesIp : Prop :=
  ∀ s t : State, step s = .next t →
    (executing s → ∃ i, fetchInstr s = .ok i ∧
      match i with
      | .jt a b => (t.ip : Int) = (if valueOf a s ≠ 0 then valueOf b s else (s.ip : Int) + 3)
      | .jf a b => (t.ip : Int) = (if valueOf a s = 0 then valueOf b s else (s.ip : Int) + 3)
      | .inp _ => t.ip = (if s.inSlot = none then s.ip else s.ip + 2)
      | .hlt => t.ip = s.ip
      | i => t.ip = s.ip + i.length) ∧
    (s.running = false → t.ip = s.ip ∨ t.ip = 0 ∧ ∃ r rest, s.requests = r :: rest ∧
      ((∃ image, r = .load image) ∨ ∃ text, r = .new text))

/-- R106, R24: a program cannot read `st` or `fault`: what an instruction does to memory and the other registers, and the
fault it ends in, do not depend on them. Nor do they depend on what was responded before: a produced value is held in no
register (R26), and the record of responses that no step reads is the model's own (log 7). -/
def Obligations.ProgramsCannotReadStatusOrFault : Prop :=
  ∀ (s : State) (i : Instr) (st : VmState) (fault : Option FaultKind) (responses : List Response),
    let s' : State := { s with st := st, fault := fault, responses := responses }
    (∀ f, exec i s = .fault f ↔ exec i s' = .fault f) ∧
    (∀ t, exec i s = .next t → ∃ t', exec i s' = .next t' ∧ t'.mem = t.mem ∧ t'.ip = t.ip ∧ t'.rb = t.rb ∧
      t'.inSlot = t.inSlot ∧ t'.running = t.running)

/-- R5: no step changes the machine's parameters. That W and MAX_LEN are fields of State, which no step writes, is the
model's choice (log 1, log 2). -/
def Obligations.ParametersAreFixed : Prop :=
  ∀ s t : State, step s = .next t → t.cfg = s.cfg

/-! ## The invariant -/

/-- The state after reset meets the invariant. That it is the load of the empty image, on W = 64 and MAX_LEN = 2^63, is the
model's choice (log 1, log 2, log 5). -/
def Obligations.ResetMeetsTheInvariant : Prop := State.reset.Inv

/-- The state after the load of any image of words that fits MAX_LEN meets the invariant, for every W and MAX_LEN of R5. -/
def Obligations.LoadedStateMeetsTheInvariant : Prop :=
  ∀ (cfg : Config) (image : List Int), cfg.Admissible → (∀ v ∈ image, cfg.InWord v) → image.length ≤ cfg.maxLen →
    (State.load cfg image).Inv

/-- R16, R17, R18, R20, R21, R23: every step keeps the invariant: the memory stays canonical with every cell a word and its
length within MAX_LEN, `ip` stays within the bound of R18, the relative base and the slot stay words, `st` is `Initial` while a
call runs, and the slot is empty between calls. -/
def Obligations.StepKeepsTheInvariant : Prop :=
  ∀ s t : State, s.Inv → step s = .next t → t.Inv

/-- R16, R17, R18, R20, R21, R23, R78: the invariant holds along every session, through faults, refused operations and
loads. R75 leaves the state after a fault unspecified; that a faulted instance meets the invariant too rests on the values
the model keeps there (log 9). -/
def Obligations.SessionKeepsTheInvariant : Prop :=
  ∀ (s : State) (n : Nat), s.Inv → (session n s).Inv

/-- R97, D17, D18: the numeric codes of the fault kinds and of `st`. -/
def Obligations.CodesAreThoseOfTheTables : Prop :=
  [FaultKind.parseError, .invalidOpcode, .invalidAddressingMode, .negativeAddress, .illegalImmediateWrite, .outOfBounds,
    .arithmeticOverflow, .capacityExceeded].map FaultKind.code = [1, 2, 3, 4, 5, 6, 7, 8] ∧
  [VmState.initial, .waitingInstruction, .output, .ended].map VmState.code = [0, 1, 2, 3]
end

