-- ==== Sys2Proof/Laws/Memory.lean ====
section
/-! SUPPORT. The memory: read after write, extension, and that every memory operation keeps the canonical form. -/

namespace Sys2Proof.Machine

/-! ## Extension changes the length alone -/

theorem extend_eq (m : Memory) (a : Nat) : m.extend a = { m with len := max m.len (a + 1) } := by
  unfold Memory.extend
  split
  · rw [max_eq_right (by omega)]
  · rw [max_eq_left (by omega)]

theorem extend_len (m : Memory) (a : Nat) : (m.extend a).len = max m.len (a + 1) := by rw [extend_eq]

theorem extend_cells (m : Memory) (a : Nat) : (m.extend a).cells = m.cells := by rw [extend_eq]

theorem peek_extend (m : Memory) (a x : Nat) : (m.extend a).peek x = m.peek x := by
  simp only [Memory.peek, extend_cells]

theorem write_len (m : Memory) (a : Nat) (v : Int) : (m.write a v).len = max m.len (a + 1) := extend_len m a

theorem write_cells (m : Memory) (a : Nat) (v : Int) : (m.write a v).cells = setCell m.cells a v := by
  simp only [Memory.write, extend_cells]

/-! ## Cells -/

theorem risingFrom_mono {lo lo' : Nat} (h : lo' ≤ lo) {cs : List (Nat × Int)} (hr : Memory.risingFrom lo cs = true) :
    Memory.risingFrom lo' cs = true := by
  cases cs with
  | nil => rfl
  | cons c cs =>
    simp only [Memory.risingFrom, Bool.and_eq_true, decide_eq_true_eq] at hr ⊢
    exact ⟨by omega, hr.2⟩

theorem lookupCell_of_lt {lo a : Nat} (h : a < lo) {cs : List (Nat × Int)} (hr : Memory.risingFrom lo cs = true) :
    lookupCell cs a = Memory.unlisted := by
  induction cs generalizing lo with
  | nil => rfl
  | cons c cs ih =>
    simp only [Memory.risingFrom, Bool.and_eq_true, decide_eq_true_eq] at hr
    rw [lookupCell, if_neg (by omega)]
    exact ih (lo := c.1 + 1) (by omega) hr.2

theorem lookupCell_consCell_self {lo a : Nat} (h : a < lo) (v : Int) {cs : List (Nat × Int)}
    (hr : Memory.risingFrom lo cs = true) : lookupCell (consCell a v cs) a = v := by
  unfold consCell
  split
  · rename_i hv; rw [lookupCell_of_lt h hr, hv]
  · rw [lookupCell, if_pos rfl]

theorem lookupCell_consCell_ne {a x : Nat} (h : x ≠ a) (v : Int) (cs : List (Nat × Int)) :
    lookupCell (consCell a v cs) x = lookupCell cs x := by
  unfold consCell
  split
  · rfl
  · rw [lookupCell, if_neg (Ne.symm h)]

theorem lookupCell_setCell_ne {a x : Nat} (h : x ≠ a) (v : Int) (cs : List (Nat × Int)) :
    lookupCell (setCell cs a v) x = lookupCell cs x := by
  induction cs with
  | nil => exact lookupCell_consCell_ne h v []
  | cons c cs ih =>
    obtain ⟨k, w⟩ := c
    simp only [setCell]
    split
    · exact lookupCell_consCell_ne h v _
    · split
      · rename_i hk
        rw [lookupCell_consCell_ne h, lookupCell, if_neg (by omega)]
      · rw [lookupCell, lookupCell, ih]

theorem lookupCell_setCell_self {lo : Nat} (a : Nat) (v : Int) {cs : List (Nat × Int)}
    (hr : Memory.risingFrom lo cs = true) : lookupCell (setCell cs a v) a = v := by
  induction cs generalizing lo with
  | nil => exact lookupCell_consCell_self (lo := a + 1) (by omega) v rfl
  | cons c cs ih =>
    obtain ⟨k, w⟩ := c
    simp only [Memory.risingFrom, Bool.and_eq_true, decide_eq_true_eq] at hr
    simp only [setCell]
    split
    · rename_i hlt
      exact lookupCell_consCell_self hlt v (by simp [Memory.risingFrom, hr.2])
    · split
      · rename_i hk
        exact lookupCell_consCell_self (lo := k + 1) (by omega) v hr.2
      · rename_i hne
        rw [lookupCell, if_neg (Ne.symm hne)]
        exact ih hr.2

/-! ## Read after write -/

theorem peek_write_ne (m : Memory) {a x : Nat} (h : x ≠ a) (v : Int) : (m.write a v).peek x = m.peek x := by
  simp only [Memory.peek, write_cells]
  exact lookupCell_setCell_ne h v m.cells

theorem peek_write_self {m : Memory} (hm : m.wf = true) (a : Nat) (v : Int) : (m.write a v).peek a = v := by
  simp only [Memory.wf, Bool.and_eq_true] at hm
  simp only [Memory.peek, write_cells]
  exact lookupCell_setCell_self a v hm.1

/-! ## The canonical form -/

/-- The second half of the canonical form: no cell equals what an unlisted address reads as, all lie below `n`. -/
abbrev CellsBelow (n : Nat) (cs : List (Nat × Int)) : Prop := ∀ c ∈ cs, c.2 ≠ Memory.unlisted ∧ c.1 < n

theorem wf_iff (m : Memory) : m.wf = true ↔ Memory.risingFrom 0 m.cells = true ∧ CellsBelow m.len m.cells := by
  simp [Memory.wf, CellsBelow]

theorem risingFrom_consCell {lo a : Nat} (h : lo ≤ a) (v : Int) {cs : List (Nat × Int)}
    (hr : Memory.risingFrom (a + 1) cs = true) : Memory.risingFrom lo (consCell a v cs) = true := by
  unfold consCell
  split
  · exact risingFrom_mono (by omega) hr
  · simp [Memory.risingFrom, h, hr]

theorem risingFrom_setCell {lo a : Nat} (h : lo ≤ a) (v : Int) {cs : List (Nat × Int)}
    (hr : Memory.risingFrom lo cs = true) : Memory.risingFrom lo (setCell cs a v) = true := by
  induction cs generalizing lo with
  | nil => exact risingFrom_consCell h v rfl
  | cons c cs ih =>
    obtain ⟨k, w⟩ := c
    simp only [Memory.risingFrom, Bool.and_eq_true, decide_eq_true_eq] at hr
    simp only [setCell]
    split
    · rename_i hlt
      exact risingFrom_consCell h v (by simp [Memory.risingFrom, hr.2]; omega)
    · split
      · rename_i hk
        exact risingFrom_consCell h v (hk ▸ hr.2)
      · rename_i hlt hne
        simp only [Memory.risingFrom, Bool.and_eq_true, decide_eq_true_eq]
        exact ⟨hr.1, ih (by omega) hr.2⟩

theorem cellsBelow_consCell {n a : Nat} (h : a < n) (v : Int) {cs : List (Nat × Int)} (hc : CellsBelow n cs) :
    CellsBelow n (consCell a v cs) := by
  unfold consCell
  split
  · exact hc
  · rename_i hv
    exact List.forall_mem_cons.2 ⟨⟨hv, h⟩, hc⟩

theorem cellsBelow_setCell {n a : Nat} (h : a < n) (v : Int) {cs : List (Nat × Int)} (hc : CellsBelow n cs) :
    CellsBelow n (setCell cs a v) := by
  induction cs with
  | nil => exact cellsBelow_consCell h v hc
  | cons c cs ih =>
    obtain ⟨hk, hcs⟩ := List.forall_mem_cons.1 hc
    simp only [setCell]
    split
    · exact cellsBelow_consCell h v hc
    · split
      · exact cellsBelow_consCell h v hcs
      · exact List.forall_mem_cons.2 ⟨hk, ih hcs⟩

theorem wf_lengthen {m : Memory} (hm : m.wf = true) {n : Nat} (hn : m.len ≤ n) :
    Memory.wf { m with len := n } = true := by
  rw [wf_iff] at hm ⊢
  exact ⟨hm.1, fun c hc => ⟨(hm.2 c hc).1, Nat.lt_of_lt_of_le (hm.2 c hc).2 hn⟩⟩

theorem wf_extend {m : Memory} (hm : m.wf = true) (a : Nat) : (m.extend a).wf = true := by
  rw [extend_eq]
  exact wf_lengthen hm (le_max_left _ _)

theorem wf_write {m : Memory} (hm : m.wf = true) (a : Nat) (v : Int) : (m.write a v).wf = true := by
  have he := (wf_iff _).1 (wf_extend hm a)
  rw [wf_iff]
  refine ⟨risingFrom_setCell (Nat.zero_le a) v he.1, cellsBelow_setCell ?_ v he.2⟩
  show a < (m.extend a).len
  rw [extend_len]; omega

theorem cellsFrom_canonical (a : Nat) (image : List Int) :
    Memory.risingFrom a (cellsFrom a image) = true ∧ CellsBelow (a + image.length) (cellsFrom a image) := by
  induction image generalizing a with
  | nil => simp [cellsFrom, Memory.risingFrom, CellsBelow]
  | cons v vs ih =>
    obtain ⟨hr, hc⟩ := ih (a + 1)
    refine ⟨risingFrom_consCell (le_refl a) v hr, cellsBelow_consCell (by simp) v ?_⟩
    rwa [List.length_cons, ← Nat.add_assoc, Nat.add_right_comm]

theorem wf_ofImage (image : List Int) : (Memory.ofImage image).wf = true := by
  have h := cellsFrom_canonical 0 image
  rw [Nat.zero_add] at h
  exact (wf_iff _).2 h

/-! ## Reading -/

theorem peek_past_end {m : Memory} (hm : m.wf = true) {a : Nat} (ha : m.len ≤ a) : m.peek a = Memory.unlisted := by
  have key : ∀ cs : List (Nat × Int), CellsBelow m.len cs → lookupCell cs a = Memory.unlisted := by
    intro cs
    induction cs with
    | nil => exact fun _ => rfl
    | cons c cs ih =>
      intro hc
      obtain ⟨hk, hcs⟩ := List.forall_mem_cons.1 hc
      rw [lookupCell, if_neg (by omega)]
      exact ih hcs
  exact key _ ((wf_iff m).1 hm).2

theorem lookupCell_cellsFrom (a : Nat) (image : List Int) (i : Nat) :
    lookupCell (cellsFrom a image) (a + i) = image.getD i 0 := by
  induction image generalizing a i with
  | nil => rfl
  | cons v vs ih =>
    cases i with
    | zero => exact lookupCell_consCell_self (lo := a + 1) (by omega) v (cellsFrom_canonical (a + 1) vs).1
    | succ i =>
      rw [cellsFrom, lookupCell_consCell_ne (by omega), show a + (i + 1) = a + 1 + i by omega, ih]
      rfl

theorem peek_ofImage (image : List Int) (i : Nat) : (Memory.ofImage image).peek i = image.getD i 0 := by
  have h := lookupCell_cellsFrom 0 image i
  rwa [Nat.zero_add] at h

end Sys2Proof.Machine
end

