-- ==== Sys2Proof/Laws/State.lean ====
section
/-! SUPPORT. One lemma for each field that an update of the state leaves or sets, each true by definition. -/

namespace Sys2Proof.Machine

section advance
variable (n : Nat) (s : State)
@[simp] theorem advance_cfg : (advance n s).cfg = s.cfg := rfl
@[simp] theorem advance_mem : (advance n s).mem = s.mem := rfl
@[simp] theorem advance_ip : (advance n s).ip = s.ip + n := rfl
@[simp] theorem advance_rb : (advance n s).rb = s.rb := rfl
@[simp] theorem advance_st : (advance n s).st = s.st := rfl
@[simp] theorem advance_inSlot : (advance n s).inSlot = s.inSlot := rfl
@[simp] theorem advance_fault : (advance n s).fault = s.fault := rfl
@[simp] theorem advance_running : (advance n s).running = s.running := rfl
@[simp] theorem advance_requests : (advance n s).requests = s.requests := rfl
@[simp] theorem advance_responses : (advance n s).responses = s.responses := rfl
end advance

section startRun
variable (input : Option Int) (s : State)
@[simp] theorem startRun_cfg : (startRun input s).cfg = s.cfg := rfl
@[simp] theorem startRun_mem : (startRun input s).mem = s.mem := rfl
@[simp] theorem startRun_ip : (startRun input s).ip = s.ip := rfl
@[simp] theorem startRun_rb : (startRun input s).rb = s.rb := rfl
@[simp] theorem startRun_st : (startRun input s).st = .initial := rfl
@[simp] theorem startRun_inSlot : (startRun input s).inSlot = input := rfl
@[simp] theorem startRun_fault : (startRun input s).fault = s.fault := rfl
@[simp] theorem startRun_running : (startRun input s).running = true := rfl
@[simp] theorem startRun_requests : (startRun input s).requests = s.requests := rfl
@[simp] theorem startRun_responses : (startRun input s).responses = s.responses := rfl
end startRun

section yieldWith
variable (st : VmState) (v : Option Int) (s : State)
@[simp] theorem yieldWith_cfg : (yieldWith st v s).cfg = s.cfg := rfl
@[simp] theorem yieldWith_mem : (yieldWith st v s).mem = s.mem := rfl
@[simp] theorem yieldWith_ip : (yieldWith st v s).ip = s.ip := rfl
@[simp] theorem yieldWith_rb : (yieldWith st v s).rb = s.rb := rfl
@[simp] theorem yieldWith_st : (yieldWith st v s).st = st := rfl
@[simp] theorem yieldWith_inSlot : (yieldWith st v s).inSlot = none := rfl
@[simp] theorem yieldWith_fault : (yieldWith st v s).fault = s.fault := rfl
@[simp] theorem yieldWith_running : (yieldWith st v s).running = false := rfl
@[simp] theorem yieldWith_requests : (yieldWith st v s).requests = s.requests := rfl
@[simp] theorem yieldWith_responses : (yieldWith st v s).responses = s.responses ++ [.ok v] := rfl
end yieldWith

section abort
variable (f : Fault) (s : State)
@[simp] theorem abort_cfg : (abort f s).cfg = s.cfg := rfl
@[simp] theorem abort_mem : (abort f s).mem = s.mem := rfl
@[simp] theorem abort_ip : (abort f s).ip = s.ip := rfl
@[simp] theorem abort_rb : (abort f s).rb = s.rb := rfl
@[simp] theorem abort_st : (abort f s).st = s.st := rfl
@[simp] theorem abort_inSlot : (abort f s).inSlot = none := rfl
@[simp] theorem abort_fault : (abort f s).fault = some f.kind := rfl
@[simp] theorem abort_running : (abort f s).running = false := rfl
@[simp] theorem abort_requests : (abort f s).requests = s.requests := rfl
@[simp] theorem abort_responses : (abort f s).responses = s.responses ++ [.err f] := rfl
end abort

/-- The state with the memory length set, as the reads of an instruction leave it. -/
def withLen (n : Nat) (s : State) : State := { s with mem := { s.mem with len := n } }

section withLen
variable (n : Nat) (s : State)
@[simp] theorem withLen_cfg : (withLen n s).cfg = s.cfg := rfl
@[simp] theorem withLen_len : (withLen n s).mem.len = n := rfl
@[simp] theorem withLen_cells : (withLen n s).mem.cells = s.mem.cells := rfl
@[simp] theorem withLen_peek (x : Nat) : (withLen n s).mem.peek x = s.mem.peek x := rfl
@[simp] theorem withLen_ip : (withLen n s).ip = s.ip := rfl
@[simp] theorem withLen_rb : (withLen n s).rb = s.rb := rfl
@[simp] theorem withLen_st : (withLen n s).st = s.st := rfl
@[simp] theorem withLen_inSlot : (withLen n s).inSlot = s.inSlot := rfl
@[simp] theorem withLen_fault : (withLen n s).fault = s.fault := rfl
@[simp] theorem withLen_running : (withLen n s).running = s.running := rfl
@[simp] theorem withLen_requests : (withLen n s).requests = s.requests := rfl
@[simp] theorem withLen_responses : (withLen n s).responses = s.responses := rfl
@[simp] theorem withLen_withLen (m : Nat) : withLen m (withLen n s) = withLen m s := rfl
end withLen

theorem dropServed_cfg (s : State) : (dropServed s).cfg = s.cfg := by unfold dropServed; split <;> rfl
theorem dropServed_mem (s : State) : (dropServed s).mem = s.mem := by unfold dropServed; split <;> rfl
theorem dropServed_ip (s : State) : (dropServed s).ip = s.ip := by unfold dropServed; split <;> rfl
theorem dropServed_rb (s : State) : (dropServed s).rb = s.rb := by unfold dropServed; split <;> rfl
theorem dropServed_st (s : State) : (dropServed s).st = s.st := by unfold dropServed; split <;> rfl
theorem dropServed_inSlot (s : State) : (dropServed s).inSlot = s.inSlot := by unfold dropServed; split <;> rfl
theorem dropServed_fault (s : State) : (dropServed s).fault = s.fault := by unfold dropServed; split <;> rfl
theorem dropServed_running (s : State) : (dropServed s).running = s.running := by unfold dropServed; split <;> rfl
theorem dropServed_responses (s : State) : (dropServed s).responses = s.responses := by unfold dropServed; split <;> rfl

end Sys2Proof.Machine
end

