-- ==== Sys2Proof/Laws/Operands.lean ====
section
/-! SUPPORT. Everything each shared operation of an instruction can do, said once: when it answers, what it answers, and
with which kind of fault it ends otherwise. -/

namespace Sys2Proof.Machine

/-! ## Except -/

theorem bind_ok_iff {ε α β : Type} {x : Except ε α} {f : α → Except ε β} {b : β} :
    (x >>= f) = .ok b ↔ ∃ a, x = .ok a ∧ f a = .ok b := by
  cases x with
  | ok a => exact ⟨fun h => ⟨a, rfl, h⟩, fun ⟨a', ha, h⟩ => by cases ha; exact h⟩
  | error e => exact ⟨fun h => (nomatch h), fun ⟨_, ha, _⟩ => (nomatch ha)⟩

theorem bind_error_iff {ε α β : Type} {x : Except ε α} {f : α → Except ε β} {e : ε} :
    (x >>= f) = .error e ↔ x = .error e ∨ ∃ a, x = .ok a ∧ f a = .error e := by
  cases x with
  | ok a => exact ⟨fun h => .inr ⟨a, rfl, h⟩, fun h => by
      rcases h with h | ⟨a', ha, h⟩
      · nomatch h
      · cases ha; exact h⟩
  | error e' => exact ⟨fun h => by cases h; exact .inl rfl, fun h => by
      rcases h with h | ⟨_, ha, _⟩
      · cases h; rfl
      · nomatch ha⟩

theorem ok_bind {ε α β : Type} (x : α) (f : α → Except ε β) : ((Except.ok x : Except ε α) >>= f) = f x := rfl

theorem error_bind {ε α β : Type} (e : ε) (f : α → Except ε β) : ((Except.error e : Except ε α) >>= f) = .error e := rfl

theorem ok_iff {ε α : Type} {a b : α} : (Except.ok a : Except ε α) = .ok b ↔ b = a :=
  ⟨fun h => (Except.ok.inj h).symm, fun h => by rw [h]⟩

theorem finish_next_iff {r : Except Fault State} {t : State} : finish r = .next t ↔ r = .ok t := by
  cases r <;> simp [finish]

theorem finish_fault_iff {r : Except Fault State} {f : Fault} : finish r = .fault f ↔ r = .error f := by
  cases r <;> simp [finish]

theorem finish_ne_refused (r : Except Fault State) (x : Refusal) : finish r ≠ .refused x := by
  cases r <;> simp [finish]

/-! ## Memory accesses -/

theorem memRead_ok_iff {a : Nat} {s t : State} {v : Int} :
    memRead a s = .ok (v, t) ↔ a < s.cfg.maxLen ∧ v = s.mem.peek a ∧ t = withLen (max s.mem.len (a + 1)) s := by
  unfold memRead
  rw [extend_eq]
  split
  · exact ⟨fun h => (nomatch h), fun h => by omega⟩
  · rename_i h
    rw [ok_iff, Prod.mk.injEq]
    exact ⟨fun h' => ⟨by omega, h'.1, h'.2⟩, fun h' => h'.2⟩

theorem memRead_error_iff {a : Nat} {s : State} {f : Fault} :
    memRead a s = .error f ↔ s.cfg.maxLen ≤ a ∧ f = .capacityExceeded a s.ip := by
  unfold memRead
  split
  · rename_i h
    exact ⟨fun h' => ⟨h, (Except.error.inj h').symm⟩, fun h' => by rw [h'.2]⟩
  · rename_i h
    exact ⟨fun h' => (nomatch h'), fun h' => absurd h'.1 h⟩

theorem memRead_error {a : Nat} {s : State} {f : Fault} (h : memRead a s = .error f) : f = .capacityExceeded a s.ip :=
  (memRead_error_iff.1 h).2

theorem memWrite_ok_iff {a : Nat} {v : Int} {s t : State} :
    memWrite a v s = .ok t ↔ a < s.cfg.maxLen ∧ t = { s with mem := s.mem.write a v } := by
  unfold memWrite
  split
  · exact ⟨fun h => (nomatch h), fun h => by omega⟩
  · rw [ok_iff]
    exact ⟨fun h' => ⟨by omega, h'⟩, fun h' => h'.2⟩

theorem memWrite_error {a : Nat} {v : Int} {s : State} {f : Fault} (h : memWrite a v s = .error f) :
    f = .capacityExceeded a s.ip := by
  unfold memWrite at h
  split at h <;> cases h
  rfl

theorem chk_ok_iff {v r : Int} {s : State} : chk v s = .ok r ↔ s.cfg.InWord v ∧ r = v := by
  unfold chk
  split
  · rename_i h; rw [ok_iff]; exact ⟨fun h' => ⟨h, h'⟩, fun h' => h'.2⟩
  · rename_i h; exact ⟨fun h' => (nomatch h'), fun h' => absurd h'.1 h⟩

theorem chk_error {v : Int} {s : State} {f : Fault} (h : chk v s = .error f) : f = .arithmeticOverflow v s.ip := by
  unfold chk at h
  split at h <;> cases h
  rfl

theorem chk_overflow {v : Int} {s : State} (h : ¬s.cfg.InWord v) : chk v s = .error (.arithmeticOverflow v s.ip) :=
  if_neg h

theorem chk_withLen (v : Int) (n : Nat) (s : State) : chk v (withLen n s) = chk v s := rfl

theorem boolWord_lessThan (a b : Int) : boolWord (lessThan a b) = if a < b then 1 else 0 := by
  simp only [boolWord, lessThan, decide_eq_true_eq]

theorem boolWord_equals (a b : Int) : boolWord (equals a b) = if a = b then 1 else 0 := by
  simp only [boolWord, equals, decide_eq_true_eq]

theorem memWrite_capacity {a : Nat} {v : Int} {s : State} (h : s.cfg.maxLen ≤ a) :
    memWrite a v s = .error (.capacityExceeded a s.ip) := if_pos h

theorem memWrite_withLen_capacity {a n : Nat} {v : Int} {s : State} (h : s.cfg.maxLen ≤ a) :
    memWrite a v (withLen n s) = .error (.capacityExceeded a s.ip) := if_pos h

theorem jumpTo_ok_iff {v : Int} {s t : State} : jumpTo v s = .ok t ↔ 0 ≤ v ∧ t = { s with ip := v.toNat } := by
  unfold jumpTo
  split
  · exact ⟨fun h => (nomatch h), fun h => by omega⟩
  · rw [ok_iff]; exact ⟨fun h' => ⟨by omega, h'⟩, fun h' => h'.2⟩

theorem jumpTo_error {v : Int} {s : State} {f : Fault} (h : jumpTo v s = .error f) : f = .negativeAddress v s.ip := by
  unfold jumpTo at h
  split at h <;> cases h
  rfl

/-! ## The pipeline's stages -/

theorem effAddr_ok_iff {p : Param} {s : State} {a : Nat} :
    effAddr p s = .ok a ↔ 0 ≤ paramSum s.rb p ∧ a = addrOf p s := by
  unfold effAddr
  split
  · exact ⟨fun h => (nomatch h), fun h => by omega⟩
  · rw [ok_iff]; exact ⟨fun h' => ⟨by omega, h'⟩, fun h' => h'.2⟩

theorem effAddr_error {p : Param} {s : State} {f : Fault} (h : effAddr p s = .error f) :
    f = .negativeAddress (paramSum s.rb p) s.ip := by
  unfold effAddr at h
  split at h <;> cases h
  rfl

theorem checkDst_ok_iff {k : Nat} {d : Param} {s : State} {u : Unit} :
    checkDst k d s = .ok u ↔ d.mode ≠ .immediate := by
  unfold checkDst
  split <;> simp_all

theorem checkDst_error {k : Nat} {d : Param} {s : State} {f : Fault} (h : checkDst k d s = .error f) :
    f = .illegalImmediateWrite s.ip k := by
  unfold checkDst at h
  split at h <;> cases h
  rfl

theorem readParamWords_ok_iff {n : Nat} {s t : State} :
    readParamWords (n + 1) s = .ok t ↔
      paramsFit (n + 1) s ∧ t = withLen (max s.mem.len (s.ip + (n + 1) + 1)) s := by
  induction n generalizing t with
  | zero =>
    simp only [readParamWords]
    split
    · rename_i h
      have := (memRead_error_iff.1 h).1
      exact ⟨fun h' => (nomatch h'), fun h' => by have := h'.1; simp only [paramsFit] at *; omega⟩
    · rename_i v t' h
      obtain ⟨h1, -, rfl⟩ := memRead_ok_iff.1 h
      rw [ok_iff]
      exact ⟨fun h' => ⟨by simpa [paramsFit] using h1, by simpa using h'⟩, fun h' => by simpa using h'.2⟩
  | succ n ih =>
    rw [readParamWords]
    split
    · rename_i h
      refine ⟨fun h' => (nomatch h'), fun h' => ?_⟩
      have := (ih (t := withLen (max s.mem.len (s.ip + (n + 1) + 1)) s)).2 ⟨by have := h'.1; simp only [paramsFit] at *; omega, rfl⟩
      rw [this] at h; nomatch h
    · rename_i u h
      obtain ⟨h1, rfl⟩ := ih.1 h
      split
      · rename_i h2
        have := (memRead_error_iff.1 h2).1
        exact ⟨fun h' => (nomatch h'), fun h' => by have := h'.1; simp only [paramsFit, withLen_cfg, withLen_ip] at *; omega⟩
      · rename_i v t' h2
        obtain ⟨h3, -, rfl⟩ := memRead_ok_iff.1 h2
        simp only [withLen_ip, withLen_cfg, withLen_len, withLen_withLen] at *
        rw [ok_iff, show max (max s.mem.len (s.ip + (n + 1) + 1)) (s.ip + (n + 1 + 1) + 1)
          = max s.mem.len (s.ip + (n + 1 + 1) + 1) by omega]
        exact ⟨fun h' => ⟨h3, h'⟩, fun h' => h'.2⟩

theorem readParamWords_error {n : Nat} {s : State} {f : Fault} (h : readParamWords n s = .error f) :
    f.kind = .capacityExceeded := by
  induction n with
  | zero => nomatch h
  | succ n ih =>
    rw [readParamWords] at h
    split at h
    · rename_i g hg; cases h; exact ih hg
    · split at h
      · rename_i h2; cases h; rw [memRead_error h2]; rfl
      · nomatch h

/-- Where a read parameter's value is, when its address check passes. -/
def sourceOf (p : Param) (s : State) : Source :=
  match p.mode with
  | .position => .cell (addrOf p s)
  | .immediate => .literal p.word
  | .relative => .cell (addrOf p s)

theorem locate_ok_iff {p : Param} {s : State} {l : Source} :
    locate p s = .ok l ↔ (p.mode = .immediate ∨ 0 ≤ paramSum s.rb p) ∧ l = sourceOf p s := by
  obtain ⟨m, w⟩ := p
  cases m <;> simp only [locate, sourceOf, effAddr]
  · split
    · simp [Except.map, *]
    · rw [Except.map, ok_iff]; simp_all [addrOf]
  · rw [ok_iff]; simp
  · split
    · simp [Except.map, *]
    · rw [Except.map, ok_iff]; simp_all [addrOf]

theorem locate_error {p : Param} {s : State} {f : Fault} (h : locate p s = .error f) :
    f = .negativeAddress (paramSum s.rb p) s.ip := by
  obtain ⟨m, w⟩ := p
  cases m <;> simp only [locate] at h
  · cases he : effAddr ⟨.position, w⟩ s with
    | ok a => rw [he] at h; nomatch h
    | error g => rw [he] at h; cases h; exact effAddr_error he
  · nomatch h
  · cases he : effAddr ⟨.relative, w⟩ s with
    | ok a => rw [he] at h; nomatch h
    | error g => rw [he] at h; cases h; exact effAddr_error he

/-- The operand of a parameter located in `s`, read in a later state that differs from `s` in its length alone. -/
theorem operand_ok_iff {p : Param} {s t : State} {n : Nat} {v : Int} :
    operand (sourceOf p s) (withLen n s) = .ok (v, t) ↔
      (p.mode = .immediate ∨ addrOf p s < s.cfg.maxLen) ∧ v = valueOf p s ∧ t = withLen (max n (reachOf p s)) s := by
  obtain ⟨m, w⟩ := p
  cases m <;> simp only [sourceOf, valueOf, reachOf, operand]
  · rw [memRead_ok_iff]; simp
  · rw [ok_iff, Prod.mk.injEq]; simp
  · rw [memRead_ok_iff]; simp

/-- The read of a cell at or past MAX_LEN faults with its address. -/
theorem operand_capacity {p : Param} {s : State} {n : Nat} (hm : p.mode ≠ .immediate) (h : s.cfg.maxLen ≤ addrOf p s) :
    operand (sourceOf p s) (withLen n s) = .error (.capacityExceeded (addrOf p s) s.ip) := by
  obtain ⟨m, w⟩ := p
  cases m
  · exact memRead_error_iff.2 ⟨h, rfl⟩
  · exact absurd rfl hm
  · exact memRead_error_iff.2 ⟨h, rfl⟩

theorem operand_error {l : Source} {s : State} {f : Fault} (h : operand l s = .error f) :
    f.kind = .capacityExceeded := by
  cases l with
  | literal v => nomatch h
  | cell a => rw [operand] at h; rw [memRead_error h]; rfl

/-! ## The pipeline of each shape -/

theorem sourceOf_withLen (p : Param) (n : Nat) (s : State) : sourceOf p (withLen n s) = sourceOf p s := rfl
theorem addrOf_withLen (p : Param) (n : Nat) (s : State) : addrOf p (withLen n s) = addrOf p s := rfl

theorem addrOf_lt_iff {p : Param} {s : State} (h : 0 ≤ paramSum s.rb p) :
    addrOf p s < s.cfg.maxLen ↔ paramSum s.rb p < (s.cfg.maxLen : Int) := by
  unfold addrOf; omega

theorem readable_iff {p : Param} {s : State} :
    readable p s ↔
      (p.mode = .immediate ∨ 0 ≤ paramSum s.rb p) ∧ (p.mode = .immediate ∨ addrOf p s < s.cfg.maxLen) := by
  constructor
  · rintro (h | ⟨h1, h2⟩)
    · exact ⟨.inl h, .inl h⟩
    · exact ⟨.inr h1, .inr ((addrOf_lt_iff h1).2 h2)⟩
  · rintro ⟨h | h, h' | h'⟩
    · exact .inl h
    · exact .inl h
    · exact .inl h'
    · exact .inr ⟨h, (addrOf_lt_iff h).1 h'⟩

/-- Two reads and a destination: the pipeline answers exactly when the parameter words fit, both operands are readable,
and the destination is not Immediate and not below 0; it has then read, and changed nothing but the length. -/
theorem readTwoAndDst_ok_iff {a b d : Param} {s t : State} {va vb : Int} {ad : Nat} :
    readTwoAndDst a b d s = .ok (va, vb, ad, t) ↔
      (d.mode ≠ .immediate ∧ paramsFit 3 s ∧ readable a s ∧ readable b s ∧ 0 ≤ paramSum s.rb d) ∧
      va = valueOf a s ∧ vb = valueOf b s ∧ ad = addrOf d s ∧ t = withLen (lenAfterReads s 3 [a, b]) s := by
  simp only [readTwoAndDst, bind_ok_iff, Prod.exists, checkDst_ok_iff, pure, Except.pure, ok_iff]
  constructor
  · rintro ⟨-, hd, s1, h1, la, hla, lb, hlb, ad', had, va', s2, hva, vb', s3, hvb, he⟩
    obtain ⟨hp, rfl⟩ := readParamWords_ok_iff.1 h1
    obtain ⟨ha, rfl⟩ := locate_ok_iff.1 hla
    obtain ⟨hb, rfl⟩ := locate_ok_iff.1 hlb
    obtain ⟨hd', rfl⟩ := effAddr_ok_iff.1 had
    rw [sourceOf_withLen] at hva hvb
    obtain ⟨ha', rfl, rfl⟩ := operand_ok_iff.1 hva
    obtain ⟨hb', rfl, rfl⟩ := operand_ok_iff.1 hvb
    cases he
    exact ⟨⟨hd, hp, readable_iff.2 ⟨ha, ha'⟩, readable_iff.2 ⟨hb, hb'⟩, hd'⟩, rfl, rfl, rfl, rfl⟩
  · rintro ⟨⟨hd, hp, ha, hb, hd'⟩, rfl, rfl, rfl, rfl⟩
    have ha' := readable_iff.1 ha
    have hb' := readable_iff.1 hb
    exact ⟨(), hd, _, readParamWords_ok_iff.2 ⟨hp, rfl⟩, _, locate_ok_iff.2 ⟨ha'.1, rfl⟩, _, locate_ok_iff.2 ⟨hb'.1, rfl⟩,
      _, effAddr_ok_iff.2 ⟨hd', rfl⟩, _, _, operand_ok_iff.2 ⟨ha'.2, rfl, rfl⟩, _, _, operand_ok_iff.2 ⟨hb'.2, rfl, rfl⟩, rfl⟩

theorem readTwo_ok_iff {a b : Param} {s t : State} {va vb : Int} :
    readTwo a b s = .ok (va, vb, t) ↔
      (paramsFit 2 s ∧ readable a s ∧ readable b s) ∧
      va = valueOf a s ∧ vb = valueOf b s ∧ t = withLen (lenAfterReads s 2 [a, b]) s := by
  simp only [readTwo, bind_ok_iff, Prod.exists, pure, Except.pure, ok_iff]
  constructor
  · rintro ⟨s1, h1, la, hla, lb, hlb, va', s2, hva, vb', s3, hvb, he⟩
    obtain ⟨hp, rfl⟩ := readParamWords_ok_iff.1 h1
    obtain ⟨ha, rfl⟩ := locate_ok_iff.1 hla
    obtain ⟨hb, rfl⟩ := locate_ok_iff.1 hlb
    rw [sourceOf_withLen] at hva hvb
    obtain ⟨ha', rfl, rfl⟩ := operand_ok_iff.1 hva
    obtain ⟨hb', rfl, rfl⟩ := operand_ok_iff.1 hvb
    cases he
    exact ⟨⟨hp, readable_iff.2 ⟨ha, ha'⟩, readable_iff.2 ⟨hb, hb'⟩⟩, rfl, rfl, rfl⟩
  · rintro ⟨⟨hp, ha, hb⟩, rfl, rfl, rfl⟩
    have ha' := readable_iff.1 ha
    have hb' := readable_iff.1 hb
    exact ⟨_, readParamWords_ok_iff.2 ⟨hp, rfl⟩, _, locate_ok_iff.2 ⟨ha'.1, rfl⟩, _, locate_ok_iff.2 ⟨hb'.1, rfl⟩,
      _, _, operand_ok_iff.2 ⟨ha'.2, rfl, rfl⟩, _, _, operand_ok_iff.2 ⟨hb'.2, rfl, rfl⟩, rfl⟩

theorem readOne_ok_iff {a : Param} {s t : State} {va : Int} :
    readOne a s = .ok (va, t) ↔
      (paramsFit 1 s ∧ readable a s) ∧ va = valueOf a s ∧ t = withLen (lenAfterReads s 1 [a]) s := by
  simp only [readOne, bind_ok_iff]
  constructor
  · rintro ⟨s1, h1, la, hla, hva⟩
    obtain ⟨hp, rfl⟩ := readParamWords_ok_iff.1 h1
    obtain ⟨ha, rfl⟩ := locate_ok_iff.1 hla
    rw [sourceOf_withLen] at hva
    obtain ⟨ha', rfl, rfl⟩ := operand_ok_iff.1 hva
    exact ⟨⟨hp, readable_iff.2 ⟨ha, ha'⟩⟩, rfl, rfl⟩
  · rintro ⟨⟨hp, ha⟩, rfl, rfl⟩
    have ha' := readable_iff.1 ha
    exact ⟨_, readParamWords_ok_iff.2 ⟨hp, rfl⟩, _, locate_ok_iff.2 ⟨ha'.1, rfl⟩, operand_ok_iff.2 ⟨ha'.2, rfl, rfl⟩⟩

theorem dstOnly_ok_iff {d : Param} {s t : State} {ad : Nat} :
    dstOnly d s = .ok (ad, t) ↔
      (d.mode ≠ .immediate ∧ paramsFit 1 s ∧ 0 ≤ paramSum s.rb d) ∧
      ad = addrOf d s ∧ t = withLen (lenAfterReads s 1 []) s := by
  simp only [dstOnly, bind_ok_iff, checkDst_ok_iff, pure, Except.pure, ok_iff]
  constructor
  · rintro ⟨-, hd, s1, h1, ad', had, he⟩
    obtain ⟨hp, rfl⟩ := readParamWords_ok_iff.1 h1
    obtain ⟨hd', rfl⟩ := effAddr_ok_iff.1 had
    cases he
    exact ⟨⟨hd, hp, hd'⟩, rfl, rfl⟩
  · rintro ⟨⟨hd, hp, hd'⟩, rfl, rfl⟩
    exact ⟨(), hd, _, readParamWords_ok_iff.2 ⟨hp, rfl⟩, _, effAddr_ok_iff.2 ⟨hd', rfl⟩, rfl⟩

/-! ## The shared bodies -/

/-- A stored result: the pipeline answers, the result is a word for the operand values, and the destination exists. -/
theorem storeResult_ok_iff {result : Int → Int → State → Except Fault Int} {a b d : Param} {s t : State} :
    storeResult result a b d s = .ok t ↔
      (storable d s ∧ paramsFit 3 s ∧ readable a s ∧ readable b s) ∧
      ∃ v, result (valueOf a s) (valueOf b s) (withLen (lenAfterReads s 3 [a, b]) s) = .ok v ∧
        t = { s with
          mem := (withLen (lenAfterReads s 3 [a, b]) s).mem.write (addrOf d s) v
          ip := s.ip + 4 } := by
  simp only [storeResult, bind_ok_iff, Prod.exists, pure, Except.pure, ok_iff]
  constructor
  · rintro ⟨va, vb, ad, s1, h1, v, hv, s2, h2, rfl⟩
    obtain ⟨⟨hd, hp, ha, hb, hd'⟩, rfl, rfl, rfl, rfl⟩ := readTwoAndDst_ok_iff.1 h1
    obtain ⟨h3, rfl⟩ := memWrite_ok_iff.1 h2
    exact ⟨⟨⟨hd, hd', (addrOf_lt_iff hd').1 h3⟩, hp, ha, hb⟩, v, hv, rfl⟩
  · rintro ⟨⟨⟨hd, hd', h3⟩, hp, ha, hb⟩, v, hv, rfl⟩
    exact ⟨_, _, _, _, readTwoAndDst_ok_iff.2 ⟨⟨hd, hp, ha, hb, hd'⟩, rfl, rfl, rfl, rfl⟩, v, hv, _,
      memWrite_ok_iff.2 ⟨(addrOf_lt_iff hd').2 h3, rfl⟩, rfl⟩

/-- The same when only the reads are known to succeed: what is left is the result and the store. -/
theorem storeResult_eq {result : Int → Int → State → Except Fault Int} {a b d : Param} {s : State}
    (h : operandsReady a b d s) :
    storeResult result a b d s =
      (result (valueOf a s) (valueOf b s) (withLen (lenAfterReads s 3 [a, b]) s) >>= fun v =>
        memWrite (addrOf d s) v (withLen (lenAfterReads s 3 [a, b]) s) >>= fun s2 => pure (advance 4 s2)) := by
  obtain ⟨hp, ha, hb, hd, h0⟩ := h
  rw [storeResult, readTwoAndDst_ok_iff.2 ⟨⟨hd, hp, ha, hb, h0⟩, rfl, rfl, rfl, rfl⟩]
  rfl

/-- A conditional jump: taken to a target that is not negative, or not taken. -/
theorem jumpWhen_ok_iff {taken : Int → Bool} {a b : Param} {s t : State} :
    jumpWhen taken a b s = .ok t ↔
      (paramsFit 2 s ∧ readable a s ∧ readable b s) ∧
      (if taken (valueOf a s) then
        0 ≤ valueOf b s ∧ t = { withLen (lenAfterReads s 2 [a, b]) s with ip := (valueOf b s).toNat }
      else t = advance 3 (withLen (lenAfterReads s 2 [a, b]) s)) := by
  simp only [jumpWhen, bind_ok_iff, Prod.exists]
  constructor
  · rintro ⟨va, vb, s1, h1, h2⟩
    obtain ⟨hs, rfl, rfl, rfl⟩ := readTwo_ok_iff.1 h1
    refine ⟨hs, ?_⟩
    split at h2
    · rename_i ht; rw [if_pos ht]; exact jumpTo_ok_iff.1 h2
    · rename_i ht; rw [if_neg ht]; exact ok_iff.1 h2
  · rintro ⟨hs, h2⟩
    refine ⟨_, _, _, readTwo_ok_iff.2 ⟨hs, rfl, rfl, rfl⟩, ?_⟩
    split at h2
    · rename_i ht; rw [if_pos ht]; exact jumpTo_ok_iff.2 h2
    · rename_i ht; rw [if_neg ht]; exact ok_iff.2 h2

/-! ## Which kinds of fault the pipelines raise -/

theorem readTwoAndDst_error {a b d : Param} {s : State} {f : Fault} (h : readTwoAndDst a b d s = .error f) :
    f.kind = .illegalImmediateWrite ∨ f.kind = .capacityExceeded ∨ f.kind = .negativeAddress := by
  simp only [readTwoAndDst, bind_error_iff, Prod.exists, pure, Except.pure, reduceCtorEq, and_false, exists_false,
    or_false] at h
  rcases h with h | ⟨-, -, h | ⟨s1, -, h | ⟨la, -, h | ⟨lb, -, h | ⟨ad, -, h | ⟨va, s2, -, h⟩⟩⟩⟩⟩⟩
  · rw [checkDst_error h]; exact .inl rfl
  · exact .inr (.inl (readParamWords_error h))
  · rw [locate_error h]; exact .inr (.inr rfl)
  · rw [locate_error h]; exact .inr (.inr rfl)
  · rw [effAddr_error h]; exact .inr (.inr rfl)
  · exact .inr (.inl (operand_error h))
  · exact .inr (.inl (operand_error h))

theorem readTwo_error {a b : Param} {s : State} {f : Fault} (h : readTwo a b s = .error f) :
    f.kind = .capacityExceeded ∨ f.kind = .negativeAddress := by
  simp only [readTwo, bind_error_iff, Prod.exists, pure, Except.pure, reduceCtorEq, and_false, exists_false,
    or_false] at h
  rcases h with h | ⟨s1, -, h | ⟨la, -, h | ⟨lb, -, h | ⟨va, s2, -, h⟩⟩⟩⟩
  · exact .inl (readParamWords_error h)
  · rw [locate_error h]; exact .inr rfl
  · rw [locate_error h]; exact .inr rfl
  · exact .inl (operand_error h)
  · exact .inl (operand_error h)

theorem readOne_error {a : Param} {s : State} {f : Fault} (h : readOne a s = .error f) :
    f.kind = .capacityExceeded ∨ f.kind = .negativeAddress := by
  simp only [readOne, bind_error_iff] at h
  rcases h with h | ⟨s1, -, h | ⟨la, -, h⟩⟩
  · exact .inl (readParamWords_error h)
  · rw [locate_error h]; exact .inr rfl
  · exact .inl (operand_error h)

theorem dstOnly_error {d : Param} {s : State} {f : Fault} (h : dstOnly d s = .error f) :
    f.kind = .illegalImmediateWrite ∨ f.kind = .capacityExceeded ∨ f.kind = .negativeAddress := by
  simp only [dstOnly, bind_error_iff, pure, Except.pure, reduceCtorEq, and_false, exists_false, or_false] at h
  rcases h with h | ⟨-, -, h | ⟨s1, -, h⟩⟩
  · rw [checkDst_error h]; exact .inl rfl
  · exact .inr (.inl (readParamWords_error h))
  · rw [effAddr_error h]; exact .inr (.inr rfl)

end Sys2Proof.Machine
end

