-- ==== Sys2Proof/Laws/Exec.lean ====
section
/-! SUPPORT. For each instruction, exactly when it answers a next state and which; later proofs cite these and never unfold
a meaning. -/

namespace Sys2Proof.Machine

/-- What an instruction that stores the word `v` leaves: the reads' extension, the word, `ip + 4`. -/
def storedState (a b d : Param) (v : Int) (s : State) : State :=
  { s with
    mem := (withLen (lenAfterReads s 3 [a, b]) s).mem.write (addrOf d s) v
    ip := s.ip + 4 }

/-- The conditions on state and operands under which a storing instruction's accesses all succeed. -/
abbrev storeReady (a b d : Param) (s : State) : Prop :=
  storable d s ∧ paramsFit 3 s ∧ readable a s ∧ readable b s

theorem storedState_storedAt {s : State} (hm : s.mem.wf = true) (a b d : Param) (v : Int) :
    StoredAt 3 [a, b] d v s (storedState a b d v s) where
  stored := peek_write_self (wf_lengthen hm (by simp only [lenAfterReads, List.foldl]; omega)) _ _
  same _ hx := peek_write_ne _ hx _
  len := write_len _ _ _

theorem execAdd_next_iff {a b d : Param} {s t : State} :
    execAdd a b d s = .next t ↔
      storeReady a b d s ∧ s.cfg.InWord (valueOf a s + valueOf b s) ∧
      t = storedState a b d (valueOf a s + valueOf b s) s := by
  simp only [execAdd, finish_next_iff, storeResult_ok_iff, chk_ok_iff, withLen_cfg]
  exact ⟨fun ⟨h, v, ⟨hw, hv⟩, ht⟩ => ⟨h, hw, hv ▸ ht⟩, fun ⟨h, hw, ht⟩ => ⟨h, _, ⟨hw, rfl⟩, ht⟩⟩

theorem execMul_next_iff {a b d : Param} {s t : State} :
    execMul a b d s = .next t ↔
      storeReady a b d s ∧ s.cfg.InWord (valueOf a s * valueOf b s) ∧
      t = storedState a b d (valueOf a s * valueOf b s) s := by
  simp only [execMul, finish_next_iff, storeResult_ok_iff, chk_ok_iff, withLen_cfg]
  exact ⟨fun ⟨h, v, ⟨hw, hv⟩, ht⟩ => ⟨h, hw, hv ▸ ht⟩, fun ⟨h, hw, ht⟩ => ⟨h, _, ⟨hw, rfl⟩, ht⟩⟩

theorem execLt_next_iff {a b d : Param} {s t : State} :
    execLt a b d s = .next t ↔
      storeReady a b d s ∧ t = storedState a b d (boolWord (lessThan (valueOf a s) (valueOf b s))) s := by
  simp only [execLt, finish_next_iff, storeResult_ok_iff, ok_iff]
  exact ⟨fun ⟨h, v, hv, ht⟩ => ⟨h, hv ▸ ht⟩, fun ⟨h, ht⟩ => ⟨h, _, rfl, ht⟩⟩

theorem execEq_next_iff {a b d : Param} {s t : State} :
    execEq a b d s = .next t ↔
      storeReady a b d s ∧ t = storedState a b d (boolWord (equals (valueOf a s) (valueOf b s))) s := by
  simp only [execEq, finish_next_iff, storeResult_ok_iff, ok_iff]
  exact ⟨fun ⟨h, v, hv, ht⟩ => ⟨h, hv ▸ ht⟩, fun ⟨h, ht⟩ => ⟨h, _, rfl, ht⟩⟩

/-- What Input leaves when it consumes the word `v`. -/
def inputState (d : Param) (v : Int) (s : State) : State :=
  { s with
    mem := (withLen (lenAfterReads s 1 []) s).mem.write (addrOf d s) v
    ip := s.ip + 2
    inSlot := none }

/-- What Input leaves when it stalls. -/
def stalledState (s : State) : State := yieldWith .waitingInstruction none (withLen (lenAfterReads s 1 []) s)

theorem inputState_storedAt {s : State} (hm : s.mem.wf = true) (d : Param) (v : Int) :
    StoredAt 1 [] d v s (inputState d v s) where
  stored := peek_write_self (wf_lengthen hm (by simp only [lenAfterReads, List.foldl]; omega)) _ _
  same _ hx := peek_write_ne _ hx _
  len := write_len _ _ _

theorem takeInput_ok_iff {ad : Nat} {s t : State} :
    takeInput ad s = .ok t ↔
      (∃ v, s.inSlot = some v ∧ ad < s.cfg.maxLen ∧
        t = advance 2 { s with mem := s.mem.write ad v, inSlot := none }) ∨
      (s.inSlot = none ∧ t = yieldWith .waitingInstruction none s) := by
  unfold takeInput
  split
  · rename_i v hv
    simp only [hv, Option.some.injEq, exists_eq_left', reduceCtorEq, false_and, or_false]
    split
    · rename_i h
      refine ⟨fun h' => (nomatch h'), fun h' => ?_⟩
      rw [memWrite_ok_iff.2 ⟨h'.1, rfl⟩] at h
      nomatch h
    · rename_i s1 h
      obtain ⟨h1, rfl⟩ := memWrite_ok_iff.1 h
      rw [ok_iff]
      exact ⟨fun h' => ⟨h1, h'⟩, fun h' => h'.2⟩
  · rename_i hv
    simp [hv, eq_comm]

theorem execIn_next_iff {d : Param} {s t : State} :
    execIn d s = .next t ↔
      (d.mode ≠ .immediate ∧ paramsFit 1 s ∧ 0 ≤ paramSum s.rb d) ∧
      ((∃ v, s.inSlot = some v ∧ addrFits d s ∧ t = inputState d v s) ∨ (s.inSlot = none ∧ t = stalledState s)) := by
  simp only [execIn, finish_next_iff, bind_ok_iff, Prod.exists, takeInput_ok_iff]
  constructor
  · rintro ⟨ad, s1, h1, ⟨v, hv, hf, rfl⟩ | ⟨hv, rfl⟩⟩ <;> obtain ⟨hr, rfl, rfl⟩ := dstOnly_ok_iff.1 h1
    · exact ⟨hr, .inl ⟨v, hv, ⟨hr.2.2, (addrOf_lt_iff hr.2.2).1 hf⟩, rfl⟩⟩
    · exact ⟨hr, .inr ⟨hv, rfl⟩⟩
  · rintro ⟨hr, ⟨v, hv, hf, rfl⟩ | ⟨hv, rfl⟩⟩
    · exact ⟨_, _, dstOnly_ok_iff.2 ⟨hr, rfl, rfl⟩, .inl ⟨v, hv, (addrOf_lt_iff hr.2.2).2 hf.2, rfl⟩⟩
    · exact ⟨_, _, dstOnly_ok_iff.2 ⟨hr, rfl, rfl⟩, .inr ⟨hv, rfl⟩⟩

theorem execOut_next_iff {a : Param} {s t : State} :
    execOut a s = .next t ↔
      (paramsFit 1 s ∧ readable a s) ∧
      t = yieldWith .output (some (valueOf a s)) (advance 2 (withLen (lenAfterReads s 1 [a]) s)) := by
  simp only [execOut, finish_next_iff, bind_ok_iff, Prod.exists, pure, Except.pure, ok_iff]
  constructor
  · rintro ⟨va, s1, h1, rfl⟩
    obtain ⟨hr, rfl, rfl⟩ := readOne_ok_iff.1 h1
    exact ⟨hr, rfl⟩
  · rintro ⟨hr, rfl⟩
    exact ⟨_, _, readOne_ok_iff.2 ⟨hr, rfl, rfl⟩, rfl⟩

theorem nonZero_iff {v : Int} : nonZero v = true ↔ v ≠ 0 := by simp [nonZero]

theorem execJt_next_iff {a b : Param} {s t : State} :
    execJt a b s = .next t ↔
      (paramsFit 2 s ∧ readable a s ∧ readable b s) ∧
      (if valueOf a s ≠ 0 then
        0 ≤ valueOf b s ∧ t = { withLen (lenAfterReads s 2 [a, b]) s with ip := (valueOf b s).toNat }
      else t = advance 3 (withLen (lenAfterReads s 2 [a, b]) s)) := by
  simp only [execJt, finish_next_iff, jumpWhen_ok_iff, nonZero_iff]

theorem execJf_next_iff {a b : Param} {s t : State} :
    execJf a b s = .next t ↔
      (paramsFit 2 s ∧ readable a s ∧ readable b s) ∧
      (if valueOf a s = 0 then
        0 ≤ valueOf b s ∧ t = { withLen (lenAfterReads s 2 [a, b]) s with ip := (valueOf b s).toNat }
      else t = advance 3 (withLen (lenAfterReads s 2 [a, b]) s)) := by
  simp only [execJf, finish_next_iff, jumpWhen_ok_iff, Bool.not_eq_true', ← Bool.not_eq_true, nonZero_iff, not_not]

theorem execArb_next_iff {a : Param} {s t : State} :
    execArb a s = .next t ↔
      (paramsFit 1 s ∧ readable a s) ∧ s.cfg.InWord (s.rb + valueOf a s) ∧
      t = advance 2 { withLen (lenAfterReads s 1 [a]) s with rb := s.rb + valueOf a s } := by
  simp only [execArb, finish_next_iff, bind_ok_iff, Prod.exists, chk_ok_iff, pure, Except.pure, ok_iff]
  constructor
  · rintro ⟨va, s1, h1, r, ⟨hw, rfl⟩, rfl⟩
    obtain ⟨hr, rfl, rfl⟩ := readOne_ok_iff.1 h1
    exact ⟨hr, hw, rfl⟩
  · rintro ⟨hr, hw, rfl⟩
    exact ⟨_, _, readOne_ok_iff.2 ⟨hr, rfl, rfl⟩, _, ⟨hw, rfl⟩, rfl⟩

theorem execHlt_next_iff {s t : State} : execHlt s = .next t ↔ t = yieldWith .ended none s := by
  rw [execHlt, finish_next_iff, ok_iff]

/-- Every instruction ends in a next state or a fault; none is refused. -/
theorem exec_ne_refused (i : Instr) (s : State) (x : Refusal) : exec i s ≠ .refused x := by
  cases i with
  | hlt => exact finish_ne_refused (.ok _) x
  | _ => exact finish_ne_refused _ x

/-- Everything an instruction that answers a next state can have done. -/
theorem exec_next_cases {i : Instr} {s t : State} (h : exec i s = .next t) :
    (∃ a b d v, (i = .add a b d ∨ i = .mul a b d ∨ i = .lt a b d ∨ i = .eq a b d) ∧ storeReady a b d s ∧
      (s.cfg.InWord v ∨ v = 0 ∨ v = 1) ∧ t = storedState a b d v s) ∨
    (∃ d v, i = .inp d ∧ paramsFit 1 s ∧ storable d s ∧ s.inSlot = some v ∧ t = inputState d v s) ∨
    (∃ d, i = .inp d ∧ paramsFit 1 s ∧ s.inSlot = none ∧ t = stalledState s) ∨
    (∃ a, i = .out a ∧ paramsFit 1 s ∧ readable a s ∧
      t = yieldWith .output (some (valueOf a s)) (advance 2 (withLen (lenAfterReads s 1 [a]) s))) ∨
    (∃ a b, (i = .jt a b ∧ valueOf a s ≠ 0 ∨ i = .jf a b ∧ valueOf a s = 0) ∧ paramsFit 2 s ∧ readable a s ∧
      readable b s ∧ 0 ≤ valueOf b s ∧
      t = { withLen (lenAfterReads s 2 [a, b]) s with ip := (valueOf b s).toNat }) ∨
    (∃ a b, (i = .jt a b ∧ valueOf a s = 0 ∨ i = .jf a b ∧ valueOf a s ≠ 0) ∧ paramsFit 2 s ∧ readable a s ∧
      readable b s ∧ t = advance 3 (withLen (lenAfterReads s 2 [a, b]) s)) ∨
    (∃ a, i = .arb a ∧ paramsFit 1 s ∧ readable a s ∧ s.cfg.InWord (s.rb + valueOf a s) ∧
      t = advance 2 { withLen (lenAfterReads s 1 [a]) s with rb := s.rb + valueOf a s }) ∨
    (i = .hlt ∧ t = yieldWith .ended none s) := by
  cases i with
  | add a b d => obtain ⟨h1, h2, rfl⟩ := execAdd_next_iff.1 h; exact .inl ⟨a, b, d, _, by simp, h1, .inl h2, rfl⟩
  | mul a b d => obtain ⟨h1, h2, rfl⟩ := execMul_next_iff.1 h; exact .inl ⟨a, b, d, _, by simp, h1, .inl h2, rfl⟩
  | lt a b d => obtain ⟨h1, rfl⟩ := execLt_next_iff.1 h; exact .inl ⟨a, b, d, _, by simp, h1, by unfold boolWord; split <;> simp, rfl⟩
  | eq a b d => obtain ⟨h1, rfl⟩ := execEq_next_iff.1 h; exact .inl ⟨a, b, d, _, by simp, h1, by unfold boolWord; split <;> simp, rfl⟩
  | inp d =>
    obtain ⟨⟨h1, h2, h3⟩, ⟨v, hv, hf, rfl⟩ | ⟨hv, rfl⟩⟩ := execIn_next_iff.1 h
    · exact .inr (.inl ⟨d, v, rfl, h2, ⟨h1, hf⟩, hv, rfl⟩)
    · exact .inr (.inr (.inl ⟨d, rfl, h2, hv, rfl⟩))
  | out a => obtain ⟨⟨h1, h2⟩, rfl⟩ := execOut_next_iff.1 h; exact .inr (.inr (.inr (.inl ⟨a, rfl, h1, h2, rfl⟩)))
  | jt a b =>
    obtain ⟨⟨h1, h2, h3⟩, h4⟩ := execJt_next_iff.1 h
    split at h4
    · rename_i hc; exact .inr (.inr (.inr (.inr (.inl ⟨a, b, .inl ⟨rfl, hc⟩, h1, h2, h3, h4.1, h4.2⟩))))
    · rename_i hc; exact .inr (.inr (.inr (.inr (.inr (.inl ⟨a, b, .inl ⟨rfl, not_not.1 hc⟩, h1, h2, h3, h4⟩)))))
  | jf a b =>
    obtain ⟨⟨h1, h2, h3⟩, h4⟩ := execJf_next_iff.1 h
    split at h4
    · rename_i hc; exact .inr (.inr (.inr (.inr (.inl ⟨a, b, .inr ⟨rfl, hc⟩, h1, h2, h3, h4.1, h4.2⟩))))
    · rename_i hc; exact .inr (.inr (.inr (.inr (.inr (.inl ⟨a, b, .inr ⟨rfl, hc⟩, h1, h2, h3, h4⟩)))))
  | arb a => obtain ⟨⟨h1, h2⟩, h3, rfl⟩ := execArb_next_iff.1 h; exact .inr (.inr (.inr (.inr (.inr (.inr (.inl ⟨a, rfl, h1, h2, h3, rfl⟩))))))
  | hlt => exact .inr (.inr (.inr (.inr (.inr (.inr (.inr ⟨rfl, execHlt_next_iff.1 h⟩))))))

end Sys2Proof.Machine
end

