-- ==== Sys2Proof/Laws/PerInstr.lean ====
section
/-! SUPPORT. A fact about every instruction as syntax, one lemma for each constructor: its encoding has the length R61
gives it, and its parameters are as many as its opcode's arity. -/

namespace Sys2Proof.Laws.EncodedLength

/-- `encode` gives `1 + arity` words (30_encoding.md R51, R61). -/
def Statement (i : Instr) : Prop := (encode i).length = i.length ∧ i.params.length = i.opcode.arity

theorem add (a b d : Param) : Statement (.add a b d) := ⟨rfl, rfl⟩
theorem mul (a b d : Param) : Statement (.mul a b d) := ⟨rfl, rfl⟩
theorem inp (d : Param) : Statement (.inp d) := ⟨rfl, rfl⟩
theorem out (a : Param) : Statement (.out a) := ⟨rfl, rfl⟩
theorem jt (a b : Param) : Statement (.jt a b) := ⟨rfl, rfl⟩
theorem jf (a b : Param) : Statement (.jf a b) := ⟨rfl, rfl⟩
theorem lt (a b d : Param) : Statement (.lt a b d) := ⟨rfl, rfl⟩
theorem eq (a b d : Param) : Statement (.eq a b d) := ⟨rfl, rfl⟩
theorem arb (a : Param) : Statement (.arb a) := ⟨rfl, rfl⟩
theorem hlt : Statement .hlt := ⟨rfl, rfl⟩

end Sys2Proof.Laws.EncodedLength
end

