-- ==== Sys2Proof/Laws/Step.lean ====
section
/-! SUPPORT. What one step can do, said once: an instruction of the run call, one host operation, or nothing. -/

namespace Sys2Proof.Machine

theorem fetch_ok_iff {s : State} {w : Int} : fetch s = .ok w ↔ s.ip < s.mem.len ∧ w = s.mem.peek s.ip := by
  unfold fetch
  split
  · exact ⟨fun h => (nomatch h), fun h => by omega⟩
  · rw [ok_iff]; exact ⟨fun h => ⟨by omega, h⟩, fun h => h.2⟩

theorem fetchInstr_ok_iff {s : State} {i : Instr} :
    fetchInstr s = .ok i ↔ s.ip < s.mem.len ∧ decode (s.mem.peek s.ip) (followingWords s) = .ok i := by
  unfold fetchInstr
  split
  · rename_i h
    refine ⟨fun h' => (nomatch h'), fun h' => ?_⟩
    rw [fetch_ok_iff.2 ⟨h'.1, rfl⟩] at h
    nomatch h
  · rename_i w h
    obtain ⟨hl, rfl⟩ := fetch_ok_iff.1 h
    split
    · rename_i e he
      exact ⟨fun h' => (nomatch h'), fun h' => by rw [he] at h'; nomatch h'.2⟩
    · rename_i j hj
      rw [ok_iff]
      exact ⟨fun h' => ⟨hl, by rw [hj, h']⟩, fun h' => by rw [hj] at h'; exact (Except.ok.inj h'.2).symm⟩

/-- What `serve` answers with a next state. -/
theorem serve_next_cases {r : Request} {s t : State} (h : serve r s = .next t) :
    (∃ image, (r = .load image ∨ ∃ text, r = .new text ∧ parseListing s.cfg.wordWidth text = .ok image) ∧
      firstNonWord s.cfg image = none ∧ image.length ≤ s.cfg.maxLen ∧
      t = { State.load s.cfg image with requests := s.requests, responses := s.responses }) ∨
    (s.fault = none ∧ ∃ input, r = .run input ∧ (∀ v, input = some v → s.cfg.InWord v) ∧ t = startRun input s) ∨
    (s.fault = none ∧ r = .state ∧ t = { s with responses := s.responses ++ [.state s.st] }) ∨
    (s.fault = none ∧ r = .peek ∧ t = { s with responses := s.responses ++ [.memory s.mem] }) ∨
    (s.fault = none ∧ ∃ a v, r = .poke a v ∧ 0 ≤ a ∧ a < (s.mem.len : Int) ∧ s.cfg.InWord v ∧
      t = { s with mem := s.mem.write a.toNat v }) := by
  have load : ∀ image, serveLoad image s = .next t → firstNonWord s.cfg image = none ∧ image.length ≤ s.cfg.maxLen ∧
      t = { State.load s.cfg image with requests := s.requests, responses := s.responses } := by
    intro image h
    unfold serveLoad at h
    split at h
    · nomatch h
    · rename_i hw
      split at h
      · nomatch h
      · cases h; exact ⟨hw, by omega, rfl⟩
  have live : ∀ o, ifLive s o = .next t → s.fault = none ∧ o = .next t := by
    intro o h
    unfold ifLive at h
    split at h
    · rename_i hf; exact ⟨hf, h⟩
    · nomatch h
  cases r with
  | load image => exact .inl ⟨image, .inl rfl, load image h⟩
  | new text =>
    simp only [serve, serveNew] at h
    split at h
    · nomatch h
    · rename_i image hp
      exact .inl ⟨image, .inr ⟨text, rfl, hp⟩, load image h⟩
  | run input =>
    obtain ⟨hf, h⟩ := live _ h
    refine .inr (.inl ⟨hf, input, rfl, ?_⟩)
    cases input with
    | none => cases h; exact ⟨fun v hv => (nomatch hv), rfl⟩
    | some v =>
      simp only [serveRun] at h
      split at h
      · rename_i hw; cases h; exact ⟨fun v' hv => by cases hv; exact hw, rfl⟩
      · nomatch h
  | state =>
    obtain ⟨hf, h⟩ := live _ h
    cases h; exact .inr (.inr (.inl ⟨hf, rfl, rfl⟩))
  | peek =>
    obtain ⟨hf, h⟩ := live _ h
    cases h; exact .inr (.inr (.inr (.inl ⟨hf, rfl, rfl⟩)))
  | poke a v =>
    obtain ⟨hf, h⟩ := live _ h
    simp only [servePoke] at h
    split at h
    · nomatch h
    · rename_i ha
      split at h
      · rename_i hw
        cases h
        exact .inr (.inr (.inr (.inr ⟨hf, a, v, rfl, by omega, by omega, hw, rfl⟩)))
      · nomatch h

/-- A step that answers a next state ran an instruction of the run call, served the oldest host operation, or idled. -/
theorem step_next_cases {s t : State} (h : step s = .next t) :
    (executing s ∧ ∃ i, fetchInstr s = .ok i ∧ exec i s = .next t) ∨
    (s.running = false ∧ s.requests = [] ∧ t = s) ∨
    (s.running = false ∧ ∃ r rest, s.requests = r :: rest ∧ serve r { s with requests := rest } = .next t) := by
  unfold step at h
  split at h
  · rename_i hr hf
    split at h
    · nomatch h
    · rename_i i hi; exact .inl ⟨⟨hr, hf⟩, i, hi, h⟩
  · nomatch h
  · rename_i hr
    unfold idleStep at h
    split at h
    · rename_i hq; cases h; exact .inr (.inl ⟨hr, hq, rfl⟩)
    · rename_i r rest hq; exact .inr (.inr ⟨hr, r, rest, hq, h⟩)

/-- Inside a run call, a step is the instruction at `ip`. -/
theorem step_executing {s : State} (h : executing s) :
    step s = match fetchInstr s with
      | .error f => .fault f
      | .ok i => exec i s := by
  obtain ⟨hr, hf⟩ := h
  cases h : fetchInstr s <;> simp only [step, hr, hf, h]

/-- Between run calls, a step is the host's. -/
theorem step_idle {s : State} (h : s.running = false) : step s = idleStep s := by
  simp only [step, h]

/-- One step of the host's run of the machine. -/
theorem core_run_succ {s t : State} (h : step s = .next t) (n : Nat) :
    Sys2Proof.core.run (n + 1) s = Sys2Proof.core.run n t := by
  have h' : Sys2Proof.core.step s = .next t := h
  simp only [Host.Core.run, h']

end Sys2Proof.Machine
end

