-- ==== Sys2Proof/Tests/Slice0.lean ====
section
/-! SUPPORT. Tests on fixed values, each expected result taken from spec/ (95_test_vectors.md or the rule named), and for each
statement with hypotheses a concrete state and operands that meet them. -/

namespace Sys2Proof.Tests

open Sys2Proof.Machine

/-! ## Helpers -/

/-- The block just after `load(image)` and the start of `run(input)`, at W = 64. -/
def running (input : Option Int) (image : List Int) : State := startRun input (State.load Config.standard image)

/-- The same with room for `maxLen` words only. -/
def small (maxLen : Nat) (input : Option Int) (image : List Int) : State :=
  startRun input (State.load ⟨64, maxLen⟩ image)

/-- The loaded block, idle, with operations pending. -/
def idle (image : List Int) (requests : List Request) : State :=
  { State.load Config.standard image with requests := requests }

/-- The loaded block after it has faulted. -/
def faulted (requests : List Request) : State :=
  { State.load Config.standard [0] with fault := some .invalidOpcode, requests := requests }

def pos (w : Int) : Param := ⟨.position, w⟩
def imm (w : Int) : Param := ⟨.immediate, w⟩
def rel (w : Int) : Param := ⟨.relative, w⟩

/-- `ip`, `st` and some words of the state a step answers. -/
def seen (o : Host.Outcome State Fault Refusal) (addresses : List Nat) : Option (Nat × VmState × List Int) :=
  (nextOf o).map fun t => (t.ip, t.st, addresses.map t.mem.peek)

/-- The fault a step ends in. -/
def faultOf : Host.Outcome State Fault Refusal → Option Fault
  | .fault f => some f
  | .next _ => none
  | .refused _ => none

/-! ## Well-formedness: each check refuses an ill-formed term -/

theorem test_wellFormed_accepts :
    Instr.wellFormed Config.standard (.add (imm (2 ^ 63 - 1)) (rel (-1)) (pos 7)) = true := by decide
theorem test_wellFormed_refuses_large_word :
    Instr.wellFormed Config.standard (.out (imm (2 ^ 63))) = false := by decide
theorem test_wellFormed_refuses_small_word :
    Instr.wellFormed Config.standard (.jt (pos 0) (imm (-(2 ^ 63) - 1))) = false := by decide
theorem test_wellFormed_refuses_immediate_destination :
    Instr.wellFormed Config.standard (.inp (imm 3)) = false := by decide

/-! ## Decoding: a word for every constructor, written from the digit fields of R50 -/

-- ADD, m1 = 1, m2 = 0, m3 = 2: 1 + 100 + 20000
theorem test_decode_add : decode 20101 [5, 6, 7] = .ok (.add (imm 5) (pos 6) (rel 7)) := rfl
-- MUL, m1 = 1, m2 = 1, m3 = 0: the source's 1102 (R66)
theorem test_decode_mul : decode 1102 [34915192, 34915192, 7] = .ok (.mul (imm 34915192) (imm 34915192) (pos 7)) := rfl
-- IN, m1 = 2: 3 + 200
theorem test_decode_inp : decode 203 [-1] = .ok (.inp (rel (-1))) := rfl
-- OUT, m1 = 2: the source's 204 (R66)
theorem test_decode_out : decode 204 [-1] = .ok (.out (rel (-1))) := rfl
-- JT, m1 = 1, m2 = 1: 5 + 100 + 1000
theorem test_decode_jt : decode 1105 [1, 7] = .ok (.jt (imm 1) (imm 7)) := rfl
-- JF, m1 = 0, m2 = 1: the source's 1006 (R66)
theorem test_decode_jf : decode 1006 [101, 0] = .ok (.jf (pos 101) (imm 0)) := rfl
-- LT, m1 = 2, m2 = 1, m3 = 0: 7 + 200 + 1000
theorem test_decode_lt : decode 1207 [1, 2, 3] = .ok (.lt (rel 1) (imm 2) (pos 3)) := rfl
-- EQ, m1 = 0, m2 = 1, m3 = 0: the source's 1008 (R66)
theorem test_decode_eq : decode 1008 [100, 16, 101] = .ok (.eq (pos 100) (imm 16) (pos 101)) := rfl
-- ARB, m1 = 1: the source's 109 (R66)
theorem test_decode_arb : decode 109 [1] = .ok (.arb (imm 1)) := rfl
-- HLT with spare mode digits 2, 2, 2 (R56)
theorem test_decode_hlt : decode 22299 [] = .ok .hlt := rfl
-- 95_test_vectors.md 2.1
theorem test_decode_rejects :
    [0, -1, 345, 399, 100099].map (fun w => decode w []) =
      [.error .invalidOpcode, .error .invalidOpcode, .error .invalidOpcode, .error (.invalidAddressingMode 1),
        .error (.invalidAddressingMode 4)] := rfl
-- the canonical words of R62
theorem test_encode : [encode (.mul (imm 3) (pos 4) (rel 5)), encode (.inp (rel (-1))), encode .hlt] =
    [[20102, 3, 4, 5], [203, -1], [99]] := rfl

/-! ## The host's table words -/

theorem test_table_word_out : decodeTableWord 8 4 = some (.out (pos 0)) := rfl
theorem test_table_word_negative_parameter :
    decodeTableWord 128 (204 + (2 ^ 64 - 1) * 2 ^ 64) = some (.out (rel (-1))) := rfl
theorem test_table_word_step :
    seen (step (State.reset.withFetchWord 8 4)) [0] = some (2, .output, [4]) := by decide
theorem test_table_word_step_is_exec (i : Instr) (h : decodeTableWord 8 1 = some i) :
    step (State.reset.withFetchWord 8 1) = exec i (State.reset.withFetchWord 8 1) := by
  cases h; rfl

/-! ## The instructions (95_test_vectors.md 2.2 to 2.7) -/

theorem test_add : seen (step (running none [1, 5, 6, 7, 99, 3, 4, 0])) [7] = some (4, .initial, [7]) := by decide
theorem test_add_overflow :
    faultOf (step (running none [1101, 9223372036854775807, 1, 5, 99, 0])) =
      some (.arithmeticOverflow 9223372036854775808 0) := by decide
theorem test_mul_signs : seen (step (running none [1102, -3, 4, 5, 99, 0])) [5] = some (4, .initial, [-12]) := by decide
theorem test_mul_overflow :
    faultOf (step (running none [1102, -9223372036854775808, -1, 5, 99, 0])) =
      some (.arithmeticOverflow 9223372036854775808 0) := by decide
theorem test_inp_own_word : seen (step (running (some 7) [3, 0, 99])) [0] = some (2, .initial, [7]) := by decide
theorem test_inp_stalls : seen (step (running none [3, 3, 99, 0])) [3] = some (0, .waitingInstruction, [0]) := by decide
theorem test_out_extends :
    (nextOf (step (running none [4, 50, 99]))).map (fun t => (t.ip, t.mem.len, t.responses)) =
      some (2, 51, [.ok (some 0)]) := by decide
theorem test_jt_taken : seen (step (running none [1105, -4, 7, 99])) [] = some (7, .initial, []) := by decide
theorem test_jt_negative_target : faultOf (step (running none [1105, 1, -3, 99])) = some (.negativeAddress (-3) 0) := by decide
theorem test_jf_taken : seen (step (running none [1106, 0, 7, 99])) [] = some (7, .initial, []) := by decide
theorem test_jf_not_taken : seen (step (running none [1106, 1, 7, 99])) [] = some (3, .initial, []) := by decide
theorem test_lt_signed : seen (step (running none [1107, -5, 3, 5, 99, 0])) [5] = some (4, .initial, [1]) := by decide
theorem test_lt_equal : seen (step (running none [1107, 3, 3, 5, 99, 0])) [5] = some (4, .initial, [0]) := by decide
theorem test_eq_equal : seen (step (running none [1108, 7, 7, 5, 99, 0])) [5] = some (4, .initial, [1]) := by decide
theorem test_eq_unequal : seen (step (running none [1108, 7, -7, 5, 99, 0])) [5] = some (4, .initial, [0]) := by decide
theorem test_arb_uses_old_base :
    (nextOf (step { running none [209, 1, 99] with rb := 1 })).map (fun t => (t.rb, t.ip)) = some (100, 2) := by decide
theorem test_arb_overflow :
    faultOf (step { running none [109, 1, 99] with rb := 9223372036854775807 }) =
      some (.arithmeticOverflow 9223372036854775808 0) := by decide
theorem test_hlt : seen (step (running none [99])) [] = some (0, .ended, []) := by decide
theorem test_relative_operands_extend :
    (nextOf (step { running none [22201, 0, 1, 2, 99] with rb := 5 })).map (fun t => (t.mem.toList, t.ip)) =
      some ([22201, 0, 1, 2, 99, 0, 0, 0], 4) := by decide

/-! ## Faults and their order (95_test_vectors.md 2.1) -/

theorem test_immediate_destination_before_negative :
    faultOf (step (running none [10001, -1, -2, 0, 99])) = some (.illegalImmediateWrite 0 3) := by decide
theorem test_lowest_negative_address :
    faultOf (step (running none [1, -1, -2, 0, 99])) = some (.negativeAddress (-1) 0) := by decide
theorem test_relative_destination_below_zero :
    faultOf (step (running none [21101, 2, 3, -1, 99])) = some (.negativeAddress (-1) 0) := by decide
theorem test_empty_image : faultOf (step (running none [])) = some (.outOfBounds 0 0) := by decide

/-! ## Sessions (95_test_vectors.md 2.7, 2.3, 2.8) -/

theorem test_session_output_then_end :
    (session 4 (idle [4, 3, 99, 42] [.run none, .run (some 8)])).responses = [.ok (some 42), .ok none] := by decide
theorem test_session_poke_then_fault :
    (session 5 (idle [1, 0, 0, 3, 99] [.poke 3 4, .run none])).responses = [.err (.outOfBounds 8 8)] := by decide
theorem test_new_reports_token : faultOf (step (idle [] [.new "1,x".toList])) = some (.parseError ['x']) := by decide
theorem test_assembler_text :
    instrChars (.add (pos 100) (imm (-1)) (rel (-3))) = "ADD [100], #-1, [rb-3]".toList := by decide

/-! ## Witnesses: what each statement assumes can be met, clause by clause -/

theorem witness_SpareModeDigitsAreIgnored :
    decodeWord 204 = .ok ⟨.out, .relative, .position, .position⟩ ∧
    decodeWord 12204 = .ok ⟨.out, .relative, .relative, .immediate⟩ := ⟨rfl, rfl⟩

theorem witness_DecoderChecksInOrder :
    (-1 : Int) < 0 ∧ (100 : Int) % 100 ∉ ([1, 2, 3, 4, 5, 6, 7, 8, 9, 99] : List Int) ∧
    (399 : Int) / 100 % 10 ∉ ([0, 1, 2] : List Int) ∧ (3099 : Int) / 1000 % 10 ∉ ([0, 1, 2] : List Int) ∧
    (30099 : Int) / 10000 % 10 ∉ ([0, 1, 2] : List Int) ∧ (100099 : Int) / 100000 ≠ 0 ∧ (99999 : Int) / 100000 = 0 ∧
    decodeWord 22299 = .ok ⟨.hlt, .relative, .relative, .relative⟩ := by decide

theorem witness_StepRunsTheDecodedInstruction :
    let s := running none [99]
    executing s ∧ s.ip < s.mem.len ∧
      decode (s.mem.peek s.ip) [s.mem.peek (s.ip + 1), s.mem.peek (s.ip + 2), s.mem.peek (s.ip + 3)] = .ok .hlt := by decide

theorem witness_FetchPastTheEndFaults :
    (let s := running none []; s.mem.len ≤ s.ip ∧ executing s) ∧ (let s := running none [99]; s.ip < s.mem.len) := by decide

theorem witness_UndecodableWordFaults :
    (let s := running none [0];
      executing s ∧ s.ip < s.mem.len ∧ decodeWord (s.mem.peek s.ip) = .error .invalidOpcode) ∧
    (let s := running none [399];
      executing s ∧ s.ip < s.mem.len ∧ decodeWord (s.mem.peek s.ip) = .error (.invalidAddressingMode 1)) := by decide

theorem witness_StepIsTheCommonPipeline : executing (running none [99]) := by decide

theorem witness_AddStoresTheExactSum :
    (let s := running none [1, 5, 6, 7];
      s.mem.wf = true ∧ operandsReady (imm (2 ^ 63 - 2)) (imm 1) (pos 7) s ∧
        s.cfg.InWord (valueOf (imm (2 ^ 63 - 2)) s + valueOf (imm 1) s) ∧ addrOf (pos 7) s < s.cfg.maxLen) ∧
    (let s := running none [1, 5, 6, 7];
      operandsReady (imm (2 ^ 63 - 1)) (imm 1) (pos 7) s ∧
        ¬s.cfg.InWord (valueOf (imm (2 ^ 63 - 1)) s + valueOf (imm 1) s)) ∧
    (let s := small 8 none [1, 5, 6, 7];
      s.mem.wf = true ∧ operandsReady (pos 5) (pos 7) (pos 8) s ∧
        s.cfg.InWord (valueOf (pos 5) s + valueOf (pos 7) s) ∧ s.cfg.maxLen ≤ addrOf (pos 8) s) := by decide

theorem witness_MulStoresTheExactProduct :
    (let s := running none [2, 5, 6, 7];
      s.mem.wf = true ∧ operandsReady (imm (-(2 ^ 62))) (imm 2) (pos 7) s ∧
        s.cfg.InWord (valueOf (imm (-(2 ^ 62))) s * valueOf (imm 2) s) ∧ addrOf (pos 7) s < s.cfg.maxLen) ∧
    (let s := running none [2, 5, 6, 7];
      operandsReady (imm (2 ^ 62)) (imm 2) (pos 7) s ∧ ¬s.cfg.InWord (valueOf (imm (2 ^ 62)) s * valueOf (imm 2) s)) ∧
    (let s := small 8 none [2, 5, 6, 7];
      s.mem.wf = true ∧ operandsReady (pos 5) (pos 7) (pos 8) s ∧
        s.cfg.InWord (valueOf (pos 5) s * valueOf (pos 7) s) ∧ s.cfg.maxLen ≤ addrOf (pos 8) s) := by decide

theorem witness_LessThanStoresOneOrZero :
    (let s := running none [7, 0, 1, 9];
      s.mem.wf = true ∧ operandsReady (imm (-1)) (imm 0) (pos 9) s ∧ addrOf (pos 9) s < s.cfg.maxLen ∧
        valueOf (imm (-1)) s < valueOf (imm 0) s ∧ valueOf (imm 0) s ≤ valueOf (imm 0) s) ∧
    (let s := small 4 none [7, 0, 1, 4];
      operandsReady (imm 1) (imm 1) (pos 4) s ∧ s.cfg.maxLen ≤ addrOf (pos 4) s) := by decide

theorem witness_EqualsStoresOneOrZero :
    (let s := running none [8, 0, 1, 9];
      s.mem.wf = true ∧ operandsReady (pos 0) (imm 8) (pos 9) s ∧ addrOf (pos 9) s < s.cfg.maxLen ∧
        valueOf (pos 0) s = valueOf (imm 8) s ∧ valueOf (pos 0) s ≠ valueOf (imm 7) s) ∧
    (let s := small 4 none [8, 0, 1, 4];
      operandsReady (imm 1) (imm 1) (pos 4) s ∧ s.cfg.maxLen ≤ addrOf (pos 4) s) := by decide

theorem witness_InputStoresAndEmptiesTheSlot :
    (let s := running (some 5) [3, 3];
      s.mem.wf = true ∧ paramsFit 1 s ∧ (pos 3).mode ≠ .immediate ∧ 0 ≤ paramSum s.rb (pos 3) ∧ s.inSlot = some 5 ∧
        addrOf (pos 3) s < s.cfg.maxLen) ∧
    (let s := small 2 (some 5) [3, 2];
      s.mem.wf = true ∧ paramsFit 1 s ∧ 0 ≤ paramSum s.rb (pos 2) ∧ s.inSlot = some 5 ∧
        s.cfg.maxLen ≤ addrOf (pos 2) s) := by decide

theorem witness_InputWithoutAValueStalls :
    let s := running none [3, 3]
    paramsFit 1 s ∧ (pos 3).mode ≠ .immediate ∧ 0 ≤ paramSum s.rb (pos 3) ∧ s.inSlot = none := by decide

theorem witness_InputDestinationIsCheckedFirst :
    let s := running none [3, -1]
    (imm 3).mode = .immediate ∧ (pos (-1)).mode ≠ .immediate ∧ paramsFit 1 s ∧ paramSum s.rb (pos (-1)) < 0 := by decide

theorem witness_OutputYieldsItsOperand :
    let s := running none [4, 3]
    paramsFit 1 s ∧ readable (pos 3) s ∧ readable (imm (-1)) s := by decide

theorem witness_JumpIfTrueJumpsOnNonZero :
    let s := running none [5, 1, 2]
    paramsFit 2 s ∧ readable (imm (-4)) s ∧ readable (imm 0) s ∧ valueOf (imm (-4)) s ≠ 0 ∧ 0 ≤ valueOf (imm 0) s ∧
      valueOf (imm (-3)) s < 0 ∧ valueOf (imm 0) s = 0 := by decide

theorem witness_JumpIfFalseJumpsOnZero :
    let s := running none [6, 1, 2]
    paramsFit 2 s ∧ readable (imm 0) s ∧ readable (pos 1) s ∧ valueOf (imm 0) s = 0 ∧ 0 ≤ valueOf (pos 1) s ∧
      valueOf (imm (-3)) s < 0 ∧ valueOf (pos 1) s ≠ 0 := by decide

theorem witness_AdjustRelativeBaseAddsToTheBase :
    let s := { running none [109, 1] with rb := 9223372036854775807 }
    paramsFit 1 s ∧ readable (imm 0) s ∧ s.cfg.InWord (s.rb + valueOf (imm 0) s) ∧
      ¬s.cfg.InWord (s.rb + valueOf (imm 1) s) := by decide

theorem witness_PseudoInstructionsDoAsNamed :
    let s := running none [1, 0, 0, 0]
    s.cfg.Admissible ∧ s.mem.wf = true ∧ paramsFit 3 s ∧ readable (pos 0) s ∧ storable (rel 9) s ∧
      s.cfg.InWord (valueOf (pos 0) s) ∧ s.cfg.InWord (-valueOf (pos 0) s) ∧ valueOf (pos 0) s ≠ 0 ∧
      valueOf (pos 1) s = 0 ∧ 0 ≤ valueOf (pos 0) s := by decide

theorem witness_StoringInstructionsFrame :
    (nextOf (exec (.add (pos 0) (imm 1) (pos 9)) (running none [1]))).isSome ∧
    (nextOf (exec (.mul (pos 0) (imm 1) (pos 9)) (running none [2]))).isSome ∧
    (nextOf (exec (.lt (pos 0) (imm 1) (pos 9)) (running none [7]))).isSome ∧
    (nextOf (exec (.eq (pos 0) (imm 1) (pos 9)) (running none [8]))).isSome := by decide

theorem witness_InputFrame :
    (nextOf (exec (.inp (pos 9)) (running (some 1) [3]))).isSome ∧ (running (some 1) [3]).inSlot ≠ none ∧
    (nextOf (exec (.inp (pos 9)) (running none [3]))).isSome ∧ (running none [3]).inSlot = none := by decide

theorem witness_NonStoringInstructionsFrame :
    (nextOf (exec (.jt (imm 1) (imm 9)) (running none [5]))).isSome ∧
    (nextOf (exec (.jf (imm 1) (imm 9)) (running none [6]))).isSome ∧
    (nextOf (exec (.arb (pos 9)) (running none [9]))).isSome ∧
    (nextOf (exec (.out (rel 9)) (running none [4]))).isSome ∧
    (nextOf (exec .hlt (running none [99]))).isSome := by decide

theorem witness_ImmediateDestinationFaultsFirst : (imm 0).mode = .immediate := rfl

theorem witness_ParameterWordPastCapacityFaults :
    (let s := small 3 none [1, 0, 0]; let i := Instr.add (pos (-1)) (pos 0) (pos 0);
      i.params ≠ [] ∧ (∀ d ∈ i.dst, d.mode ≠ .immediate) ∧ ¬paramsFit i.params.length s) ∧
    (let s := small 8 none [1, 7, 8, 9]; let i := Instr.add (pos 7) (rel 8) (pos 9);
      paramsFit i.params.length s ∧ (∀ d ∈ i.dst, d.mode ≠ .immediate) ∧
        (∀ q ∈ i.params, q.mode = .immediate ∨ 0 ≤ paramSum s.rb q) ∧ i.reads[1]? = some (rel 8) ∧
        (rel 8).mode ≠ .immediate ∧ (s.cfg.maxLen : Int) ≤ paramSum s.rb (rel 8) ∧
        (∀ j < 1, ∀ q ∈ i.reads[j]?, readable q s)) := by decide

-- R99, R100: the operand read of parameter 2 comes before the destination write, which is past MAX_LEN too
theorem test_operand_past_capacity : faultOf (step (small 8 none [1, 7, 8, 9])) = some (.capacityExceeded 8 0) := by decide

theorem witness_LowestNegativeAddressIsReported :
    let s := running none [1, 2 ^ 70, -1, -2]
    let i := Instr.add (pos (2 ^ 70)) (rel (-1)) (pos (-2))
    paramsFit i.params.length s ∧ (∀ d ∈ i.dst, d.mode ≠ .immediate) ∧ i.params[1]? = some (rel (-1)) ∧
      (rel (-1)).mode ≠ .immediate ∧ paramSum s.rb (rel (-1)) < 0 ∧
      (∀ j < 1, ∀ q ∈ i.params[j]?, q.mode = .immediate ∨ 0 ≤ paramSum s.rb q) := by decide

theorem witness_FaultKindsOfEachInstruction :
    faultOf (exec (.add (imm (2 ^ 63)) (imm 0) (pos 9)) (running none [1])) = some (.arithmeticOverflow (2 ^ 63) 0) ∧
    faultOf (exec (.out (pos (2 ^ 63))) (running none [4])) = some (.capacityExceeded (2 ^ 63) 0) ∧
    faultOf (exec (.jt (imm 1) (imm (-1))) (running none [5])) = some (.negativeAddress (-1) 0) ∧
    faultOf (exec (.eq (imm 1) (imm 1) (imm 1)) (running none [8])) = some (.illegalImmediateWrite 0 3) := by decide

theorem witness_FaultEndsTheCallAndIsLatched :
    executing (running none [0]) ∧ faultOf (step (running none [0])) = some (.invalidOpcode 0 0) := by decide

theorem witness_FaultedInstanceRefusesOperations :
    (faulted [.run none]).fault ≠ none ∧ (faulted [.run none]).running = false ∧
    (faulted [.run none]).requests = [.run none] ∧ (faulted [.state]).requests = [.state] ∧
    (faulted [.peek]).requests = [.peek] ∧ (faulted [.poke 0 1]).requests = [.poke 0 1] := by decide

theorem witness_FaultIsNeverCleared :
    let s := faulted [.peek, .run (some 1)]
    s.fault ≠ none ∧ s.running = false ∧ s.requests = [.peek, .run (some 1)] := by decide

theorem witness_ExtendZeroFills :
    let m := Memory.ofImage [7, 0, 9]
    m.wf = true ∧ m.len ≤ 3 ∧ 2 < m.len := by decide

theorem witness_ReadAnswersTheWordAndExtends :
    let s := small 8 none [1, 2]
    s.mem.wf = true ∧ s.cfg.maxLen ≤ 8 ∧ 7 < s.cfg.maxLen ∧ s.mem.len ≤ 2 ∧ 1 < s.mem.len := by decide

theorem witness_WriteChangesOneCell :
    let s := small 8 none [1, 2]
    s.mem.wf = true ∧ s.cfg.maxLen ≤ 8 ∧ 7 < s.cfg.maxLen ∧ s.mem.len ≤ 6 ∧ 6 < 7 := by decide

theorem witness_CanonicalMemoriesAreExtensional :
    let m := Memory.ofImage [7, 0, 9]
    let m' := (Memory.ofImage [7]).write 2 9
    m.wf = true ∧ m'.wf = true ∧ m.len = m'.len ∧ m = m' := by decide

theorem witness_StoredWordIsFetched :
    (running none [1]).mem.wf = true ∧ (nextOf (exec (.add (pos 0) (imm 1) (pos 9)) (running none [1]))).isSome ∧
    (nextOf (exec (.mul (pos 0) (imm 1) (pos 0)) (running none [2]))).isSome ∧
    (nextOf (exec (.lt (imm 0) (imm 1) (pos 9)) (running none [7]))).isSome ∧
    (nextOf (exec (.eq (imm 0) (imm 1) (pos 9)) (running none [8]))).isSome ∧
    (running (some 4) [3]).inSlot = some 4 ∧ (nextOf (exec (.inp (pos 9)) (running (some 4) [3]))).isSome ∧
    (nextOf (servePoke 0 5 (running none [3]))).isSome := by decide

theorem witness_MemoryNeverShrinks :
    (nextOf (step (running none [4, 50]))).isSome ∧
    (nextOf (step (idle [1] [.poke 0 2]))).isSome ∧ (idle [1] [.poke 0 2]).requests = [.poke 0 2] := by decide

theorem witness_LoadMakesAFreshInstance :
    let s := faulted [.load [1, -2]]
    s.running = false ∧ (∀ v ∈ ([1, -2] : List Int), s.cfg.InWord v) ∧ ([1, -2] : List Int).length ≤ s.cfg.maxLen ∧
      s.requests = [.load [1, -2]] ∧ parseListing s.cfg.wordWidth "1,-2".toList = .ok [1, -2] := by decide

theorem witness_LoadedStateIsTheResetState :
    (0 : Nat) < ([-2] : List Int).length ∧ (State.load Config.standard [-2]).mem.peek 0 = -2 := by decide

theorem witness_LoaderReadsBackListings :
    ([2 ^ 63 - 1, -(2 ^ 63)] : List Int) ≠ [] ∧ ∀ v ∈ ([2 ^ 63 - 1, -(2 ^ 63)] : List Int), IsWord 64 v := by decide

theorem witness_RunStartsTheTransaction :
    let s := idle [99] [.run (some 3)]
    s.running = false ∧ s.fault = none ∧ s.requests = [.run (some 3)] ∧ s.cfg.InWord 3 := by decide

theorem witness_ResponseContract :
    let ends := nextOf (step (running none [99]))
    let outputs := nextOf (step (running none [104, 5]))
    let goesOn := nextOf (step (running none [1101, 1, 2, 0]))
    ends.map State.running = some false ∧ outputs.map State.running = some false ∧
      goesOn.map State.running = some true := by decide

theorem witness_OneInputForACall :
    (nextOf (step (running none [3, 0]))).map State.running = some false ∧
    (running none [3, 0]).inSlot = none ∧ (running (some 1) [3, 0]).inSlot = some 1 ∧
    (nextOf (step (running (some 1) [3, 0]))).map State.inSlot = some none := by decide

theorem witness_RunAfterEndEndsAgain :
    let s := { idle [99] [.run (some 3)] with st := .ended }
    s.running = false ∧ s.fault = none ∧ s.requests = [.run (some 3)] ∧ s.cfg.InWord 3 ∧ s.ip < s.mem.len ∧
      decode (s.mem.peek s.ip) (followingWords s) = .ok .hlt := by decide

theorem witness_JumpToItselfNeverResponds :
    (let s := running none [1105, 1, 0];
      executing s ∧ s.ip + 2 < s.mem.len ∧ s.ip + 2 < s.cfg.maxLen ∧ s.mem.peek s.ip = 1105 ∧ (1 : Int) ≠ 0 ∧
        s.mem.peek (s.ip + 1) = 1 ∧ s.mem.peek (s.ip + 2) = (s.ip : Int)) ∧
    (let s := running none [1106, 0, 0];
      executing s ∧ s.ip + 2 < s.mem.len ∧ s.ip + 2 < s.cfg.maxLen ∧ s.mem.peek s.ip = 1106 ∧
        s.mem.peek (s.ip + 1) = 0 ∧ s.mem.peek (s.ip + 2) = (s.ip : Int)) := by decide

theorem witness_PokeSetsOneCell :
    let s := idle [1, 2] [.poke 1 9]
    s.running = false ∧ s.fault = none ∧ s.mem.wf = true ∧ s.requests = [.poke 1 9] ∧ s.cfg.InWord 9 ∧
      (1 : Int) < s.mem.len ∧ (s.mem.len : Int) ≤ 2 := by decide

theorem witness_StateAndPeekOnlyRespond :
    (idle [1] [.state]).running = false ∧ (idle [1] [.state]).fault = none ∧ (idle [1] [.state]).requests = [.state] ∧
      (idle [1] [.peek]).requests = [.peek] := by decide

theorem witness_IdleBlockKeepsItsState : (idle [1] []).running = false ∧ (idle [1] []).requests = [] := by decide

theorem witness_OnlyAdjustRelativeBaseWritesTheBase :
    (nextOf (step (running none [109, 1]))).map State.rb = some 1 ∧ (running none [109, 1]).rb = 0 := by decide

theorem witness_OnlyTheListedEventsWriteSt :
    (nextOf (step (running none [99]))).map State.st = some .ended ∧ (running none [99]).st = .initial := by decide

theorem witness_OnlyTheEngineWritesIp :
    (nextOf (step (running none [1105, 1, 9]))).map State.ip = some 9 ∧ executing (running none [1105, 1, 9]) ∧
    (nextOf (step (idle [1] [.peek]))).isSome ∧ (idle [1] [.peek]).running = false := by decide

theorem witness_ProgramsCannotReadStatusOrFault :
    (nextOf (exec (.arb (imm 1)) (running none [109, 1]))).isSome := by decide

theorem witness_ParametersAreFixed : (nextOf (step (running none [99]))).isSome := by decide

theorem witness_LoadedStateMeetsTheInvariant :
    Config.Admissible ⟨54, 2⟩ ∧ (∀ v ∈ ([2 ^ 53 - 1, -(2 ^ 53)] : List Int), Config.InWord ⟨54, 2⟩ v) ∧
      ([2 ^ 53 - 1, -(2 ^ 53)] : List Int).length ≤ 2 := by decide

/-- A state inside a run call that meets the invariant, for the statements that start from one. -/
theorem witness_StepKeepsTheInvariant :
    State.Inv ⟨Config.standard, ⟨1, []⟩, 0, 0, .initial, some 1, none, true, [], []⟩ ∧
      (nextOf (step (running none [99]))).isSome := by
  refine ⟨⟨by decide, by decide, fun a => ?_, by decide, by decide, by decide, fun v h => ?_, by decide, by decide⟩, by decide⟩
  · show Config.standard.InWord 0; decide
  · cases h; decide

theorem witness_SessionKeepsTheInvariant :
    State.Inv ⟨Config.standard, ⟨0, []⟩, 0, 0, .ended, none, some .parseError, false, [.peek], []⟩ := by
  refine ⟨by decide, by decide, fun a => ?_, by decide, by decide, by decide, fun v h => ?_, by decide, by decide⟩
  · show Config.standard.InWord 0; decide
  · cases h

end Sys2Proof.Tests
end

section
/-! The parameters of R5: which instructions and host operations could write them (none), and so no step does. -/

namespace Sys2Proof.Machine

/-- No instruction writes `W` or `MAX_LEN`: none of the states an instruction can leave has a `cfg` of its own. -/
theorem exec_cfg {i : Instr} {s t : State} (h : exec i s = .next t) : t.cfg = s.cfg := by
  obtain ⟨_, _, _, _, _, _, _, rfl⟩ | ⟨_, _, _, _, _, _, rfl⟩ | ⟨_, _, _, _, rfl⟩ | ⟨_, _, _, _, rfl⟩ |
    ⟨_, _, _, _, _, _, _, rfl⟩ | ⟨_, _, _, _, _, _, rfl⟩ | ⟨_, _, _, _, _, rfl⟩ | ⟨_, rfl⟩ :=
    exec_next_cases h <;> rfl

/-- No host operation writes `W` or `MAX_LEN`; a load keeps those the machine had. -/
theorem serve_cfg {r : Request} {s t : State} (h : serve r s = .next t) : t.cfg = s.cfg := by
  obtain ⟨_, _, _, _, rfl⟩ | ⟨_, _, _, _, rfl⟩ | ⟨_, _, rfl⟩ | ⟨_, _, rfl⟩ | ⟨_, _, _, _, _, _, _, rfl⟩ :=
    serve_next_cases h <;> rfl

/-- Settles O55, by the cases of a step: an instruction, nothing, a host operation. -/
theorem parametersAreFixed : Obligations.ParametersAreFixed := by
  intro s t h
  obtain ⟨_, _, _, hi⟩ | ⟨_, _, rfl⟩ | ⟨_, _, _, _, hr⟩ := step_next_cases h
  · exact exec_cfg hi
  · rfl
  · exact (serve_cfg hr :)

end Sys2Proof.Machine
end

section
/-! A loaded state is sound: 0 is a word at every width, so every cell of a loaded image is one, listed or not. -/

namespace Sys2Proof.Machine

theorem isWord_zero (W : Nat) : IsWord W 0 := by
  have : 0 < 2 ^ (W - 1) := by positivity
  unfold IsWord wordMin wordMax
  omega

/-- Every cell of a memory loaded from words holds a word, past the image too, where it reads 0 (R16). -/
theorem isWord_peek_ofImage {W : Nat} {image : List Int} (h : ∀ v ∈ image, IsWord W v) (a : Nat) :
    IsWord W ((Memory.ofImage image).peek a) := by
  rw [peek_ofImage]
  rcases lt_or_ge a image.length with ha | ha
  · rw [List.getD_eq_getElem _ _ ha]
    exact h _ (List.getElem_mem ha)
  · rw [List.getD_eq_default _ _ ha]
    exact isWord_zero W

/-- Settles O57: the memory's part is that of the image, and every register is at the reset value of R30. -/
theorem loadedStateMeetsTheInvariant : Obligations.LoadedStateMeetsTheInvariant := by
  intro cfg image hcfg hwords hlen
  exact {
    cfgAdmissible := hcfg
    memCanonical := wf_ofImage image
    cellsAreWords := isWord_peek_ofImage hwords
    lenBounded := hlen
    ipBounded := le_max_of_le_right (by simp only [State.load, State.reset]; omega)
    rbIsWord := isWord_zero cfg.wordWidth
    slotIsWord := fun _ h => nomatch h
    runningIsInitial := fun h => nomatch h
    idleSlotEmpty := fun _ => rfl }

end Sys2Proof.Machine
end

section
/-! How far an instruction's reads take the memory length (R36, R37): never below what it was, and never past MAX_LEN when
every access succeeds. -/

namespace Sys2Proof.Machine

/-- The length after the reads is the least one that holds the old memory, the parameter words and every operand. -/
theorem lenAfterReads_le_iff {s : State} {n m : Nat} {reads : List Param} :
    lenAfterReads s n reads ≤ m ↔ s.mem.len ≤ m ∧ s.ip + n + 1 ≤ m ∧ ∀ p ∈ reads, reachOf p s ≤ m := by
  have fold : ∀ l, reads.foldl (fun l p => max l (reachOf p s)) l ≤ m ↔ l ≤ m ∧ ∀ p ∈ reads, reachOf p s ≤ m := by
    induction reads with
    | nil => simp
    | cons p ps ih => intro l; rw [List.foldl_cons, ih, max_le_iff, List.forall_mem_cons, and_assoc]
  rw [lenAfterReads, fold, max_le_iff, and_assoc]

theorem le_lenAfterReads (s : State) (n : Nat) (reads : List Param) : s.mem.len ≤ lenAfterReads s n reads :=
  (lenAfterReads_le_iff.1 le_rfl).1

/-- What a readable parameter needs is within MAX_LEN: nothing for a literal, the cell at its address otherwise. -/
theorem reachOf_le_maxLen {p : Param} {s : State} (h : readable p s) : reachOf p s ≤ s.cfg.maxLen := by
  obtain ⟨-, hm | ha⟩ := readable_iff.1 h
  · simp [reachOf, hm]
  · unfold reachOf
    split <;> omega

theorem lenAfterReads_le_maxLen {s : State} {n : Nat} {reads : List Param} (hl : s.mem.len ≤ s.cfg.maxLen)
    (hn : paramsFit n s) (hr : ∀ p ∈ reads, readable p s) : lenAfterReads s n reads ≤ s.cfg.maxLen :=
  lenAfterReads_le_iff.2 ⟨hl, hn, fun p hp => reachOf_le_maxLen (hr p hp)⟩

end Sys2Proof.Machine
end

section
/-! The words an instruction carries are words of memory (log 10). -/

namespace Sys2Proof.Machine

/-- The decoder takes an instruction's parameter words from the three words it is given, for every opcode. -/
theorem decode_param_mem {w p1 p2 p3 : Int} {i : Instr} (h : decode w [p1, p2, p3] = .ok i) :
    ∀ q ∈ i.params, q.word ∈ [p1, p2, p3] := by
  unfold decode at h
  split at h
  · rename_i f _
    cases h
    cases ho : f.op <;> simp [assemble, ho, Instr.params]
  · nomatch h

/-- Every parameter word of the instruction at `ip` is some cell of memory. -/
theorem fetchInstr_param_peek {s : State} {i : Instr} (h : fetchInstr s = .ok i) {q : Param} (hq : q ∈ i.params) :
    ∃ a, q.word = s.mem.peek a := by
  have hw := decode_param_mem (fetchInstr_ok_iff.1 h).2 q hq
  simp only [List.mem_cons, List.not_mem_nil, or_false] at hw
  rcases hw with hw | hw | hw <;> exact ⟨_, hw⟩

end Sys2Proof.Machine
end

section
/-! The invariant, one lemma for each operation on the state: what the operation must be given so that it keeps `State.Inv`
(R16 to R24). Proofs about instructions and host operations cite these. -/

namespace Sys2Proof.Machine

theorem inv_withLen {s : State} (h : s.Inv) {n : Nat} (h1 : s.mem.len ≤ n) (h2 : n ≤ s.cfg.maxLen) :
    (withLen n s).Inv :=
  { h with memCanonical := wf_lengthen h.memCanonical h1, lenBounded := h2 }

/-- The reads of an instruction whose accesses all succeed keep the invariant. -/
theorem inv_afterReads {s : State} (h : s.Inv) {n : Nat} {reads : List Param} (hn : paramsFit n s)
    (hr : ∀ p ∈ reads, readable p s) : (withLen (lenAfterReads s n reads) s).Inv :=
  inv_withLen h (le_lenAfterReads s n reads) (lenAfterReads_le_maxLen h.lenBounded hn hr)

theorem inv_write {s : State} (h : s.Inv) {a : Nat} {v : Int} (ha : a < s.cfg.maxLen) (hv : s.cfg.InWord v) :
    State.Inv { s with mem := s.mem.write a v } :=
  { h with
    memCanonical := wf_write h.memCanonical a v
    cellsAreWords := fun x => by
      rcases eq_or_ne x a with rfl | hx
      · exact (peek_write_self h.memCanonical x v).symm ▸ hv
      · exact (peek_write_ne s.mem hx v).symm ▸ h.cellsAreWords x
    lenBounded := by
      show (s.mem.write a v).len ≤ _
      rw [write_len]
      exact max_le h.lenBounded ha }

theorem inv_advance {s : State} (h : s.Inv) {n : Nat} (hn : s.ip + n ≤ s.cfg.maxLen + 3) : (advance n s).Inv :=
  { h with ipBounded := le_max_of_le_right (by rw [advance_ip]; exact_mod_cast hn) }

/-- A jump to a word that is not negative stays within the bound of R18. -/
theorem inv_jump {s : State} (h : s.Inv) {v : Int} (h0 : 0 ≤ v) (hv : s.cfg.InWord v) :
    State.Inv { s with ip := v.toNat } :=
  { h with ipBounded := le_max_of_le_left (by rw [Int.toNat_of_nonneg h0]; exact hv.2) }

theorem inv_rb {s : State} (h : s.Inv) {v : Int} (hv : s.cfg.InWord v) : State.Inv { s with rb := v } :=
  { h with rbIsWord := hv }

theorem inv_emptySlot {s : State} (h : s.Inv) : State.Inv { s with inSlot := none } :=
  { h with slotIsWord := fun _ hv => (nomatch hv), idleSlotEmpty := fun _ => rfl }

theorem inv_yieldWith {s : State} (h : s.Inv) (st : VmState) (v : Option Int) : (yieldWith st v s).Inv :=
  { inv_emptySlot h with runningIsInitial := fun hr => (nomatch hr), idleSlotEmpty := fun _ => rfl }

theorem inv_abort {s : State} (h : s.Inv) (f : Fault) : (abort f s).Inv :=
  { inv_emptySlot h with runningIsInitial := fun hr => (nomatch hr), idleSlotEmpty := fun _ => rfl }

theorem inv_startRun {s : State} (h : s.Inv) (hf : s.fault = none) {input : Option Int}
    (hi : ∀ v, input = some v → s.cfg.InWord v) : (startRun input s).Inv :=
  { h with
    slotIsWord := hi
    runningIsInitial := fun _ => ⟨rfl, hf⟩
    idleSlotEmpty := fun hr => nomatch hr }

/-- The host's queue and record are no part of the invariant. -/
theorem inv_queue {s : State} (h : s.Inv) (requests : List Request) (responses : List Response) :
    State.Inv { s with requests := requests, responses := responses } :=
  { h with }

end Sys2Proof.Machine
end

section
/-! Every step, and every session, keeps the invariant (R16 to R24). -/

namespace Sys2Proof.Machine

theorem inWord_one {c : Config} (h : c.Admissible) : c.InWord 1 := by
  have hw : 2 ^ 1 ≤ 2 ^ (c.wordWidth - 1) := Nat.pow_le_pow_right (by decide) (by have := h.1; omega)
  unfold Config.InWord IsWord wordMin wordMax
  omega

/-- An operand's value is a word: a cell of memory, or the instruction's own parameter word. -/
theorem inWord_valueOf {s : State} (h : s.Inv) {p : Param} (hp : s.cfg.InWord p.word) : s.cfg.InWord (valueOf p s) := by
  unfold valueOf
  split
  · exact h.cellsAreWords _
  · exact hp
  · exact h.cellsAreWords _

/-- The state a storing instruction leaves, when its accesses succeed and the stored value is a word. -/
theorem inv_storedState {s : State} (h : s.Inv) {a b d : Param} (hr : storeReady a b d s) {v : Int}
    (hv : s.cfg.InWord v) : (storedState a b d v s).Inv := by
  obtain ⟨⟨-, hd⟩, hp, ha, hb⟩ := hr
  have hread := inv_afterReads (reads := [a, b]) h hp (by simp [ha, hb])
  exact inv_advance (inv_write hread ((addrOf_lt_iff hd.1).2 hd.2) hv) (n := 4) (by simp; omega)

/-- An instruction whose parameter words are words keeps the invariant. -/
theorem exec_keeps_inv {i : Instr} {s t : State} (h : s.Inv) (hw : ∀ q ∈ i.params, s.cfg.InWord q.word)
    (he : exec i s = .next t) : t.Inv := by
  obtain ⟨a, b, d, v, -, hr, hv, rfl⟩ | ⟨d, v, -, hp, ⟨-, hd⟩, hv, rfl⟩ | ⟨-, -, hp, -, rfl⟩ |
    ⟨a, -, hp, ha, rfl⟩ | ⟨a, b, hi, hp, ha, hb, h0, rfl⟩ | ⟨a, b, -, hp, ha, hb, rfl⟩ | ⟨a, -, hp, ha, hr, rfl⟩ |
    ⟨-, rfl⟩ := exec_next_cases he
  · have hv' : s.cfg.InWord v := by
      rcases hv with hv | rfl | rfl
      · exact hv
      · exact isWord_zero _
      · exact inWord_one h.cfgAdmissible
    exact inv_storedState h hr hv'
  · have hread := inv_afterReads (reads := []) h hp (by simp)
    have hwrite := inv_write hread ((addrOf_lt_iff hd.1).2 hd.2) (h.slotIsWord v hv)
    exact inv_advance (inv_emptySlot hwrite) (n := 2) (by simp; omega)
  · exact inv_yieldWith (inv_afterReads h hp (by simp)) _ _
  · have hread := inv_afterReads (reads := [a]) h hp (by simp [ha])
    exact inv_yieldWith (inv_advance hread (by simp; omega)) _ _
  · have hread := inv_afterReads (reads := [a, b]) h hp (by simp [ha, hb])
    have hb' : b ∈ i.params := by rcases hi with ⟨rfl, -⟩ | ⟨rfl, -⟩ <;> simp [Instr.params]
    exact inv_jump hread h0 (inWord_valueOf h (hw b hb'))
  · have hread := inv_afterReads (reads := [a, b]) h hp (by simp [ha, hb])
    exact inv_advance hread (by simp; omega)
  · have hread := inv_afterReads (reads := [a]) h hp (by simp [ha])
    exact inv_advance (inv_rb hread hr) (by simp; omega)
  · exact inv_yieldWith h _ _

theorem firstNonWord_eq_none {c : Config} {image : List Int} (h : firstNonWord c image = none) :
    ∀ v ∈ image, c.InWord v := by
  induction image with
  | nil => simp
  | cons v vs ih =>
    unfold firstNonWord at h
    split at h
    · rename_i hv
      exact List.forall_mem_cons.2 ⟨hv, ih h⟩
    · nomatch h

/-- A host operation keeps the invariant: what it hands over has been checked to be words that fit (log 21). -/
theorem serve_keeps_inv {r : Request} {s t : State} (h : s.Inv) (hs : serve r s = .next t) : t.Inv := by
  obtain ⟨image, -, hw, hl, rfl⟩ | ⟨hf, input, -, hi, rfl⟩ | ⟨-, -, rfl⟩ | ⟨-, -, rfl⟩ |
    ⟨-, a, v, -, h0, ha, hv, rfl⟩ := serve_next_cases hs
  · exact inv_queue (loadedStateMeetsTheInvariant s.cfg image h.cfgAdmissible (firstNonWord_eq_none hw) hl) _ _
  · exact inv_startRun h hf hi
  · exact inv_queue h _ _
  · exact inv_queue h _ _
  · have hlen := h.lenBounded
    exact inv_write h (by omega) hv

/-- Settles O58, by the cases of a step: the instruction at `ip`, whose parameter words are cells of memory, nothing, or a
host operation. -/
theorem stepKeepsTheInvariant : Obligations.StepKeepsTheInvariant := by
  intro s t h hstep
  obtain ⟨-, i, hi, he⟩ | ⟨-, -, rfl⟩ | ⟨-, r, rest, -, hs⟩ := step_next_cases hstep
  · refine exec_keeps_inv h (fun q hq => ?_) he
    obtain ⟨a, ha⟩ := fetchInstr_param_peek hi hq
    exact ha ▸ h.cellsAreWords a
  · exact h
  · exact serve_keeps_inv (inv_queue h rest _) hs

theorem inv_dropServed {s : State} (h : s.Inv) : (dropServed s).Inv := by
  unfold dropServed
  split
  · exact h
  · exact inv_queue h _ _

/-- Whichever way a step ends, the state the host goes on with meets the invariant. -/
theorem inv_settle {s : State} (h : s.Inv) : (settle s).Inv := by
  unfold settle
  split
  · rename_i t ht
    exact stepKeepsTheInvariant s t h ht
  · exact inv_abort (inv_dropServed h) _
  · exact inv_dropServed h

/-- Settles O59, by induction on the number of steps of the session. -/
theorem sessionKeepsTheInvariant : Obligations.SessionKeepsTheInvariant := by
  intro s n h
  induction n generalizing s with
  | zero => exact h
  | succ n ih => exact ih (settle s) (inv_settle h)

end Sys2Proof.Machine
end

section
/-! The frames of the instructions (R27): what each leaves as it was. -/

namespace Sys2Proof.Machine

/-- The four storing instructions differ in the stored word alone. -/
theorem storing_next {s t : State} {a b d : Param}
    (h : exec (.add a b d) s = .next t ∨ exec (.mul a b d) s = .next t ∨ exec (.lt a b d) s = .next t ∨
      exec (.eq a b d) s = .next t) : ∃ v, t = storedState a b d v s := by
  rcases h with h | h | h | h
  · exact ⟨_, (execAdd_next_iff.1 h).2.2⟩
  · exact ⟨_, (execMul_next_iff.1 h).2.2⟩
  · exact ⟨_, (execLt_next_iff.1 h).2⟩
  · exact ⟨_, (execEq_next_iff.1 h).2⟩

/-- Settles O23: the store is one memory write after the reads, and it is the only update but that of `ip`. -/
theorem storingInstructionsFrame : Obligations.StoringInstructionsFrame := by
  intro s t a b d h
  obtain ⟨v, rfl⟩ := storing_next h
  exact ⟨fun x hx => peek_write_ne _ hx v, write_len _ _ v, rfl, rfl, rfl, rfl, rfl, rfl, rfl, rfl⟩

/-- Settles O24, by whether the slot is full (one write) or empty (a yield after the reads). -/
theorem inputFrame : Obligations.InputFrame := by
  intro s t d h
  obtain ⟨-, ⟨v, hv, -, rfl⟩ | ⟨hv, rfl⟩⟩ := execIn_next_iff.1 h
  · exact ⟨fun x hx => peek_write_ne _ hx v, fun hn => (nomatch hv.symm.trans hn), fun _ => ⟨rfl, rfl, rfl⟩,
      rfl, rfl, rfl, rfl, rfl⟩
  · exact ⟨fun _ _ => rfl, fun _ => ⟨fun _ => rfl, rfl⟩, fun hn => absurd hv hn, rfl, rfl, rfl, rfl, rfl⟩

/-- A jump that completes has read, and written `ip` alone. -/
theorem jump_next {s t : State} {a b : Param} (h : exec (.jt a b) s = .next t ∨ exec (.jf a b) s = .next t) :
    ∃ n, t = { withLen (lenAfterReads s 2 [a, b]) s with ip := n } := by
  rcases h with h | h
  · have ht := (execJt_next_iff.1 h).2
    split at ht
    · exact ⟨_, ht.2⟩
    · exact ⟨_, ht⟩
  · have ht := (execJf_next_iff.1 h).2
    split at ht
    · exact ⟨_, ht.2⟩
    · exact ⟨_, ht⟩

/-- Settles O25: each of the five leaves the state its reads left, but for the registers it is said to write. -/
theorem nonStoringInstructionsFrame : Obligations.NonStoringInstructionsFrame := by
  intro s t a b
  refine ⟨fun h => ?_, fun h => ?_, ?_⟩
  · obtain ⟨n, rfl⟩ := jump_next h
    exact ⟨fun _ => rfl, rfl, rfl, rfl, rfl, rfl, rfl, rfl, rfl⟩
  · obtain ⟨-, -, rfl⟩ := execArb_next_iff.1 h
    exact ⟨fun _ => rfl, rfl, rfl, rfl, rfl, rfl, rfl, rfl⟩
  · rintro (h | h)
    · obtain ⟨-, rfl⟩ := execOut_next_iff.1 h
      exact ⟨fun _ => rfl, rfl, rfl, rfl, rfl⟩
    · obtain rfl := execHlt_next_iff.1 h
      exact ⟨fun _ => rfl, rfl, rfl, rfl, rfl⟩

end Sys2Proof.Machine
end

section
/-! What a step can do to one register or to the memory length: what an instruction can do, and what a host operation
can, each said once. -/

namespace Sys2Proof.Machine

/-- A request that loads a program anew: `load`, or its textual form `new` (R113, R114). -/
abbrev isLoadRequest (r : Request) : Prop := (∃ image, r = .load image) ∨ ∃ text, r = .new text

/-- What a host operation does to `ip`, `rb`, `st` and the memory length: a load resets `ip` and `st`; any other leaves
`ip` and `rb`, shortens no memory, and writes `st` only where a run call starts. -/
theorem serve_registers {r : Request} {s t : State} (h : serve r s = .next t) :
    (isLoadRequest r ∧ t.ip = 0 ∧ t.st = .initial) ∨
    (t.ip = s.ip ∧ t.rb = s.rb ∧ s.mem.len ≤ t.mem.len ∧ (t.st = s.st ∨ (∃ v, r = .run v) ∧ t.st = .initial)) := by
  obtain ⟨image, hr, -, -, rfl⟩ | ⟨-, input, hr, -, rfl⟩ | ⟨-, -, rfl⟩ | ⟨-, -, rfl⟩ | ⟨-, a, v, -, -, -, -, rfl⟩ :=
    serve_next_cases h
  · refine .inl ⟨?_, rfl, rfl⟩
    rcases hr with hr | ⟨text, hr, -⟩
    · exact .inl ⟨image, hr⟩
    · exact .inr ⟨text, hr⟩
  · exact .inr ⟨rfl, rfl, le_rfl, .inr ⟨⟨input, hr⟩, rfl⟩⟩
  · exact .inr ⟨rfl, rfl, le_rfl, .inl rfl⟩
  · exact .inr ⟨rfl, rfl, le_rfl, .inl rfl⟩
  · exact .inr ⟨rfl, rfl, (write_len s.mem _ v).symm ▸ le_max_left _ _, .inl rfl⟩

/-- The memory an instruction leaves is no shorter: it has been extended by reads, and perhaps written. -/
theorem exec_len_le {i : Instr} {s t : State} (h : exec i s = .next t) : s.mem.len ≤ t.mem.len := by
  have store : ∀ (n : Nat) (reads : List Param) (a : Nat) (v : Int),
      s.mem.len ≤ ((withLen (lenAfterReads s n reads) s).mem.write a v).len := fun n reads a v => by
    rw [write_len]
    exact le_max_of_le_left (le_lenAfterReads s n reads)
  obtain ⟨_, _, _, _, _, _, _, rfl⟩ | ⟨_, _, _, _, _, _, rfl⟩ | ⟨_, _, _, _, rfl⟩ | ⟨_, _, _, _, rfl⟩ |
    ⟨_, _, _, _, _, _, _, rfl⟩ | ⟨_, _, _, _, _, _, rfl⟩ | ⟨_, _, _, _, _, rfl⟩ | ⟨_, rfl⟩ := exec_next_cases h
  exacts [store _ _ _ _, store _ _ _ _, le_lenAfterReads _ _ _, le_lenAfterReads _ _ _, le_lenAfterReads _ _ _,
    le_lenAfterReads _ _ _, le_lenAfterReads _ _ _, le_rfl]

/-- ARB alone writes the relative base (R20). -/
theorem exec_rb {i : Instr} {s t : State} (h : exec i s = .next t) :
    t.rb = s.rb ∨ ∃ a, i = .arb a ∧ t.rb = s.rb + valueOf a s := by
  obtain ⟨_, _, _, _, _, _, _, rfl⟩ | ⟨_, _, _, _, _, _, rfl⟩ | ⟨_, _, _, _, rfl⟩ | ⟨_, _, _, _, rfl⟩ |
    ⟨_, _, _, _, _, _, _, rfl⟩ | ⟨_, _, _, _, _, _, rfl⟩ | ⟨a, hi, _, _, _, rfl⟩ | ⟨_, rfl⟩ := exec_next_cases h
  exacts [.inl rfl, .inl rfl, .inl rfl, .inl rfl, .inl rfl, .inl rfl, .inr ⟨a, hi, rfl⟩, .inl rfl]

/-- The three yields alone write `st` (R21). -/
theorem exec_st {i : Instr} {s t : State} (h : exec i s = .next t) :
    t.st = s.st ∨ (∃ a, i = .out a) ∧ t.st = .output ∨
      (∃ d, i = .inp d) ∧ s.inSlot = none ∧ t.st = .waitingInstruction ∨ i = .hlt ∧ t.st = .ended := by
  obtain ⟨_, _, _, _, _, _, _, rfl⟩ | ⟨_, _, _, _, _, _, rfl⟩ | ⟨d, hi, _, hv, rfl⟩ | ⟨a, hi, _, _, rfl⟩ |
    ⟨_, _, _, _, _, _, _, rfl⟩ | ⟨_, _, _, _, _, _, rfl⟩ | ⟨_, _, _, _, _, rfl⟩ | ⟨hi, rfl⟩ := exec_next_cases h
  exacts [.inl rfl, .inl rfl, .inr (.inr (.inl ⟨⟨d, hi⟩, hv, rfl⟩)), .inr (.inl ⟨⟨a, hi⟩, rfl⟩), .inl rfl, .inl rfl,
    .inl rfl, .inr (.inr (.inr ⟨hi, rfl⟩))]

/-- Settles O38, by the cases of a step; the hypothesis excludes the load. -/
theorem memoryNeverShrinks : Obligations.MemoryNeverShrinks := by
  intro s t hstep hload
  obtain ⟨-, i, -, he⟩ | ⟨-, -, rfl⟩ | ⟨hr, r, rest, hq, hs⟩ := step_next_cases hstep
  · exact exec_len_le he
  · exact le_rfl
  · obtain ⟨hl, ht⟩ := hload hr r rest hq
    obtain ⟨⟨image, hi⟩ | ⟨text, hi⟩, -⟩ | ⟨-, -, hlen, -⟩ := serve_registers hs
    · exact absurd hi (hl image)
    · exact absurd hi (ht text)
    · exact hlen

/-- Settles O51, by the cases of a step: ARB among the instructions, a load among the host's operations. -/
theorem onlyAdjustRelativeBaseWritesTheBase : Obligations.OnlyAdjustRelativeBaseWritesTheBase := by
  intro s t hstep hne
  obtain ⟨hx, i, hi, he⟩ | ⟨-, -, rfl⟩ | ⟨hr, r, rest, hq, hs⟩ := step_next_cases hstep
  · obtain hrb | ⟨a, rfl, hrb⟩ := exec_rb he
    · exact absurd hrb hne
    · exact .inl ⟨hx, a, hi, hrb⟩
  · exact absurd rfl hne
  · obtain ⟨hl, -⟩ | ⟨-, hrb, -⟩ := serve_registers hs
    · exact .inr ⟨hr, r, rest, hq, hl⟩
    · exact absurd hrb hne

/-- Settles O52, by the cases of a step: the yields among the instructions, a run or a load among the host's operations. -/
theorem onlyTheListedEventsWriteSt : Obligations.OnlyTheListedEventsWriteSt := by
  intro s t hstep hne
  obtain ⟨hx, i, hi, he⟩ | ⟨-, -, rfl⟩ | ⟨hr, r, rest, hq, hs⟩ := step_next_cases hstep
  · exact .inl ⟨hx, i, hi, (exec_st he).resolve_left hne⟩
  · exact absurd rfl hne
  · obtain ⟨hl, -, hst⟩ | ⟨-, -, -, hst | ⟨hrun, hst⟩⟩ := serve_registers hs
    · exact .inr ⟨hr, hst, r, rest, hq, .inr hl⟩
    · exact absurd hst hne
    · exact .inr ⟨hr, hst, r, rest, hq, .inl hrun⟩

/-- Settles O53. Inside a call the `ip` of each state an instruction can leave is read off; between calls only a load
writes it. -/
theorem onlyTheEngineWritesIp : Obligations.OnlyTheEngineWritesIp := by
  intro s t hstep
  obtain ⟨hx, i, hi, he⟩ | ⟨hr, -, rfl⟩ | ⟨hr, r, rest, hq, hs⟩ := step_next_cases hstep
  · refine ⟨fun _ => ⟨i, hi, ?_⟩, fun hr => absurd hx.1 (by simp [hr])⟩
    obtain ⟨_, _, _, _, rfl | rfl | rfl | rfl, _, _, rfl⟩ | ⟨_, _, rfl, _, _, hv, rfl⟩ | ⟨_, rfl, _, hv, rfl⟩ |
      ⟨_, rfl, _, _, rfl⟩ | ⟨_, _, ⟨rfl, hc⟩ | ⟨rfl, hc⟩, _, _, _, h0, rfl⟩ |
      ⟨_, _, ⟨rfl, hc⟩ | ⟨rfl, hc⟩, _, _, _, rfl⟩ | ⟨_, rfl, _, _, _, rfl⟩ | ⟨rfl, rfl⟩ := exec_next_cases he
    -- ADD, MUL, LT, EQ
    · rfl
    · rfl
    · rfl
    · rfl
    -- IN with a value
    · simp [hv, inputState]
    -- IN that stalls
    · simp [hv, stalledState]
    -- OUT
    · rfl
    -- a taken jump
    · simp [hc, h0]
    · simp [hc, h0]
    -- a jump not taken
    · simp [hc]
    · simp [hc]
    -- ARB
    · rfl
    -- HLT
    · rfl
  · exact ⟨fun hx => absurd hx.1 (by simp [hr]), fun _ => .inl rfl⟩
  · refine ⟨fun hx => absurd hx.1 (by simp [hr]), fun _ => ?_⟩
    obtain ⟨hl, hip, -⟩ | ⟨hip, -⟩ := serve_registers hs
    · exact .inr ⟨hip, r, rest, hq, hl⟩
    · exact .inl hip

end Sys2Proof.Machine
end

section
/-! The host's view of a fault (R24, R75, R98): how the session goes on from it, and that nothing later changes the
faulted machine. -/

namespace Sys2Proof.Machine

theorem settle_fault {s : State} {f : Fault} (h : step s = .fault f) : settle s = abort f (dropServed s) := by
  simp only [settle, h]

theorem settle_refused {s : State} {x : Refusal} (h : step s = .refused x) : settle s = dropServed s := by
  simp only [settle, h]

theorem dropServed_executing {s : State} (h : executing s) : dropServed s = s := by
  simp only [dropServed, h.1]

theorem dropServed_idle {s : State} (h : s.running = false) :
    dropServed s = { s with requests := s.requests.tail } := by
  simp only [dropServed, h]

/-- Settles O30: the host goes on with the state the instruction started from, aborted. -/
theorem faultEndsTheCallAndIsLatched : Obligations.FaultEndsTheCallAndIsLatched := by
  intro s f hx hf
  rw [settle_fault hf, dropServed_executing hx]
  exact ⟨rfl, rfl, rfl, rfl, rfl, rfl, rfl, rfl, rfl, rfl⟩

/-- On a faulted machine every operation but a load is refused (R78). -/
theorem serve_faulted {r : Request} {s : State} (hf : s.fault ≠ none) (hr : ¬isLoadRequest r) :
    serve r s = .refused .faultedInstance := by
  have dead : ∀ o, ifLive s o = .refused .faultedInstance := fun o => by
    unfold ifLive
    split
    · rename_i hn
      exact absurd hn hf
    · rfl
  cases r with
  | load image => exact absurd (.inl ⟨image, rfl⟩) hr
  | new text => exact absurd (.inr ⟨text, rfl⟩) hr
  | run input => exact dead _
  | state => exact dead _
  | peek => exact dead _
  | poke a v => exact dead _

/-- A step of the session on a faulted machine takes the oldest request off the queue, and does nothing else. -/
theorem settle_faulted {s : State} (hf : s.fault ≠ none) (hrun : s.running = false)
    (hq : ∀ r ∈ s.requests, ¬isLoadRequest r) : settle s = { s with requests := s.requests.tail } := by
  cases hreq : s.requests with
  | nil =>
    have hstep : step s = .next s := by rw [step_idle hrun, idleStep, hreq]
    rw [List.tail_nil, ← hreq]
    simp only [settle, hstep]
  | cons r rest =>
    have hstep : step s = .refused .faultedInstance := by
      rw [step_idle hrun, idleStep, hreq]
      exact serve_faulted (s := { s with requests := rest }) hf (hq r (by simp [hreq]))
    rw [settle_refused hstep, dropServed_idle hrun, hreq]

/-- However many steps follow, a faulted machine loses requests and nothing else. -/
theorem session_faulted {s : State} (n : Nat) (hf : s.fault ≠ none) (hrun : s.running = false)
    (hq : ∀ r ∈ s.requests, ¬isLoadRequest r) : session n s = { s with requests := s.requests.drop n } := by
  induction n generalizing s with
  | zero => rfl
  | succ n ih =>
    have htail : ∀ r ∈ s.requests.tail, ¬isLoadRequest r := fun r hr => hq r (List.mem_of_mem_tail hr)
    rw [session, settle_faulted hf hrun hq, ih (s := { s with requests := s.requests.tail }) hf hrun htail,
      List.drop_tail]

/-- Settles O32, by induction on the number of steps (`session_faulted`). -/
theorem faultIsNeverCleared : Obligations.FaultIsNeverCleared := by
  intro s n hf hrun hq
  have hload : ∀ r ∈ s.requests, ¬isLoadRequest r := by
    rintro r hr (⟨image, hi⟩ | ⟨text, hi⟩)
    · exact (hq r hr).1 image hi
    · exact (hq r hr).2 text hi
  rw [session_faulted n hf hrun hload]
  exact ⟨rfl, rfl, rfl, rfl, rfl⟩

end Sys2Proof.Machine
end

section
/-! The reset state of R30: what a load leaves, and that the machine starts from it soundly. -/

namespace Sys2Proof.Machine

/-- Settles O39: a loaded image reads back cell by cell, and every register is at its reset value. -/
theorem loadedStateIsTheResetState : Obligations.LoadedStateIsTheResetState := by
  intro cfg image
  refine ⟨rfl, fun i h => ?_, rfl, rfl, rfl, rfl, rfl⟩
  rw [← List.getD_eq_getElem image 0 h]
  exact peek_ofImage image i

/-- Settles O56: the reset state is the load of the empty image. -/
theorem resetMeetsTheInvariant : Obligations.ResetMeetsTheInvariant :=
  loadedStateMeetsTheInvariant Config.standard [] (by decide) (by simp) (Nat.zero_le _)

end Sys2Proof.Machine
end

section
/-! The memory operations (R36 to R39): what an extension, a read, a write and a fetch answer and leave. -/

namespace Sys2Proof.Machine

/-- Settles O33: an extension changes the length alone, and past the length a canonical memory reads 0. -/
theorem extendZeroFills : Obligations.ExtendZeroFills := by
  intro m a hm
  refine ⟨fun ha => ⟨?_, fun x hx _ => ?_⟩, fun ha => ?_, peek_extend m a⟩
  · rw [extend_len, max_eq_right (by omega)]
  · rw [peek_extend]
    exact peek_past_end hm hx
  · exact if_neg (by omega)

/-- Settles O34: the read below MAX_LEN sets the length alone, to what a second read leaves as it is. -/
theorem readAnswersTheWordAndExtends : Obligations.ReadAnswersTheWordAndExtends := by
  intro s a hm
  refine ⟨fun ha => memRead_error_iff.2 ⟨ha, rfl⟩, fun ha =>
    ⟨withLen (max s.mem.len (a + 1)) s, memRead_ok_iff.2 ⟨ha, rfl, rfl⟩, fun hl => ⟨peek_past_end hm hl, ?_⟩,
      fun hl => ?_, fun _ => rfl, rfl, memRead_ok_iff.2 ⟨ha, rfl, ?_⟩⟩⟩
  · exact max_eq_right (by omega)
  · rw [max_eq_left (by omega)]
    rfl
  · rw [withLen_withLen, withLen_len, max_assoc, max_self]

/-- Settles O35: one memory write; the cells it adds lie past the old length, where a canonical memory reads 0. -/
theorem writeChangesOneCell : Obligations.WriteChangesOneCell := by
  intro s a v hm
  refine ⟨memWrite_capacity, fun ha =>
    ⟨_, memWrite_ok_iff.2 ⟨ha, rfl⟩, peek_write_self hm a v, fun x hx => peek_write_ne _ hx v, fun x hl hx => ?_,
      write_len _ a v, rfl⟩⟩
  exact (peek_write_ne s.mem hx.ne v).trans (peek_past_end hm hl)

theorem fetch_past_end {s : State} (h : s.mem.len ≤ s.ip) : fetch s = .error (.outOfBounds s.ip s.mem.len) := if_pos h

theorem fetchInstr_of_fetch_error {s : State} {f : Fault} (h : fetch s = .error f) : fetchInstr s = .error f := by
  rw [fetchInstr, h]

/-- Settles O7: the fault of the fetch is that of the step. -/
theorem fetchPastTheEndFaults : Obligations.FetchPastTheEndFaults := by
  refine fun s => ⟨fun h => ⟨fetch_past_end h, fun hx => ?_⟩, fun h => fetch_ok_iff.2 ⟨h, rfl⟩⟩
  rw [step_executing hx, fetchInstr_of_fetch_error (fetch_past_end h)]

/-- A host's poke is served at an address inside memory and with a word, by one memory write (R84). -/
theorem servePoke_next_iff {a v : Int} {s t : State} :
    servePoke a v s = .next t ↔
      (0 ≤ a ∧ a < (s.mem.len : Int)) ∧ s.cfg.InWord v ∧ t = { s with mem := s.mem.write a.toNat v } := by
  unfold servePoke
  split
  · exact ⟨fun h => (nomatch h), fun h => by omega⟩
  · split
    · rename_i ha hv
      exact ⟨fun h => ⟨by omega, hv, (Host.Outcome.next.inj h).symm⟩, fun ⟨_, _, ht⟩ => by rw [ht]⟩
    · rename_i ha hv
      exact ⟨fun h => (nomatch h), fun h => absurd h.2.1 hv⟩

/-- The fetch at the address of a stored word answers it: the store has made the memory reach that far. -/
theorem fetch_of_storedAt {n : Nat} {reads : List Param} {d : Param} {v : Int} {s t : State}
    (h : StoredAt n reads d v s t) : fetch { t with ip := addrOf d s } = .ok v :=
  fetch_ok_iff.2 ⟨show addrOf d s < t.mem.len by rw [h.len]; omega, h.stored.symm⟩

/-- Settles O37: every storing instruction leaves a stored word (`StoredAt`), and a poke is one memory write. -/
theorem storedWordIsFetched : Obligations.StoredWordIsFetched := by
  refine ⟨fun s t a b d hm => ?_, fun s t d x hm hx h => ?_, fun s t a v hm h => ?_⟩
  · have stored (v : Int) : fetch { storedState a b d v s with ip := addrOf d s } = .ok v :=
      fetch_of_storedAt (storedState_storedAt hm a b d v)
    refine ⟨fun h => ?_, fun h => ?_, fun h => ?_, fun h => ?_⟩
    · rw [(execAdd_next_iff.1 h).2.2]
      exact stored _
    · rw [(execMul_next_iff.1 h).2.2]
      exact stored _
    · rw [(execLt_next_iff.1 h).2, ← boolWord_lessThan]
      exact stored _
    · rw [(execEq_next_iff.1 h).2, ← boolWord_equals]
      exact stored _
  · obtain ⟨-, ⟨v, hv, -, rfl⟩ | ⟨hv, -⟩⟩ := execIn_next_iff.1 h
    · obtain rfl : x = v := Option.some.inj (hx.symm.trans hv)
      exact fetch_of_storedAt (inputState_storedAt hm d x)
    · nomatch hx.symm.trans hv
  · obtain ⟨-, -, rfl⟩ := servePoke_next_iff.1 h
    exact fetch_ok_iff.2 ⟨show a < (s.mem.write a v).len by rw [write_len]; omega, (peek_write_self hm a v).symm⟩

end Sys2Proof.Machine
end

section
/-! The canonical form makes memory extensional (R48). -/

namespace Sys2Proof.Machine

/-- A list of cells that rises from `k'` on cannot read like one whose first cell is below `k'`: that cell reads as
unlisted in it. -/
theorem le_firstCell_of_lookupCell_eq {k k' n : Nat} {w : Int} {cs cs' : List (Nat × Int)}
    (hc : CellsBelow n ((k, w) :: cs)) (hr' : Memory.risingFrom k' cs' = true)
    (h : ∀ x, lookupCell ((k, w) :: cs) x = lookupCell cs' x) : k' ≤ k := by
  by_contra hlt
  have hk := h k
  rw [lookupCell, if_pos rfl, lookupCell_of_lt (by omega) hr'] at hk
  exact (hc (k, w) List.mem_cons_self).1 hk

/-- Rising lists of cells without an unlisted value are determined by what they hold at each address. -/
theorem cells_ext {lo lo' n n' : Nat} {cs cs' : List (Nat × Int)}
    (hr : Memory.risingFrom lo cs = true) (hr' : Memory.risingFrom lo' cs' = true)
    (hc : CellsBelow n cs) (hc' : CellsBelow n' cs') (h : ∀ x, lookupCell cs x = lookupCell cs' x) : cs = cs' := by
  induction cs generalizing lo lo' cs' with
  | nil =>
    cases cs' with
    | nil => rfl
    | cons c' cs' =>
      have := le_firstCell_of_lookupCell_eq (k' := c'.1 + 1) hc' rfl fun x => (h x).symm
      omega
  | cons c cs ih =>
    cases cs' with
    | nil =>
      have := le_firstCell_of_lookupCell_eq (k' := c.1 + 1) hc rfl h
      omega
    | cons c' cs' =>
      obtain ⟨k, w⟩ := c
      obtain ⟨k', w'⟩ := c'
      simp only [Memory.risingFrom, Bool.and_eq_true, decide_eq_true_eq] at hr hr'
      obtain rfl : k = k' := le_antisymm
        (le_firstCell_of_lookupCell_eq hc' (by simp [Memory.risingFrom, hr.2]) fun x => (h x).symm)
        (le_firstCell_of_lookupCell_eq hc (by simp [Memory.risingFrom, hr'.2]) h)
      have hw : w = w' := by simpa [lookupCell] using h k
      have htail : ∀ x, lookupCell cs x = lookupCell cs' x := by
        intro x
        rcases eq_or_ne k x with rfl | hx
        · rw [lookupCell_of_lt (Nat.lt_succ_self k) hr.2, lookupCell_of_lt (Nat.lt_succ_self k) hr'.2]
        · simpa [lookupCell, hx] using h x
      rw [hw, ih hr.2 hr'.2 (List.forall_mem_cons.1 hc).2 (List.forall_mem_cons.1 hc').2 htail]

/-- Settles O36: the lengths are equal by hypothesis, the cells by `cells_ext`. -/
theorem canonicalMemoriesAreExtensional : Obligations.CanonicalMemoriesAreExtensional := by
  intro ⟨len, cells⟩ ⟨len', cells'⟩ hm hm' hlen hpeek
  obtain ⟨hr, hc⟩ := (wf_iff _).1 hm
  obtain ⟨hr', hc'⟩ := (wf_iff _).1 hm'
  obtain rfl : len = len' := hlen
  exact congrArg (Memory.mk len) (cells_ext hr hr' hc hc' hpeek)

end Sys2Proof.Machine
end

section
/-! Accesses at or past MAX_LEN (R37, R99, R100): the first parameter word, and after the address checks the lowest operand,
that memory cannot reach ends the instruction. -/

namespace Sys2Proof.Machine

/-- The pipeline of the instruction, which each one runs before anything is executed (R70), ends in the fault `f`. -/
def accessesFault : Instr → State → Fault → Prop
  | .add a b d, s, f => readTwoAndDst a b d s = .error f
  | .mul a b d, s, f => readTwoAndDst a b d s = .error f
  | .inp d, s, f => dstOnly d s = .error f
  | .out a, s, f => readOne a s = .error f
  | .jt a b, s, f => readTwo a b s = .error f
  | .jf a b, s, f => readTwo a b s = .error f
  | .lt a b d, s, f => readTwoAndDst a b d s = .error f
  | .eq a b d, s, f => readTwoAndDst a b d s = .error f
  | .arb a, s, f => readOne a s = .error f
  | .hlt, _, _ => False

theorem storeResult_of_reads_error {result : Int → Int → State → Except Fault Int} {a b d : Param} {s : State} {f : Fault}
    (h : readTwoAndDst a b d s = .error f) : storeResult result a b d s = .error f := by
  rw [storeResult, h, error_bind]

theorem jumpWhen_of_reads_error {taken : Int → Bool} {a b : Param} {s : State} {f : Fault}
    (h : readTwo a b s = .error f) : jumpWhen taken a b s = .error f := by
  rw [jumpWhen, h, error_bind]

/-- A fault of an instruction's accesses is the fault of the instruction. -/
theorem exec_of_accessesFault {i : Instr} {s : State} {f : Fault} (h : accessesFault i s f) : exec i s = .fault f := by
  cases i with
  | add a b d => exact finish_fault_iff.2 (storeResult_of_reads_error h)
  | mul a b d => exact finish_fault_iff.2 (storeResult_of_reads_error h)
  | lt a b d => exact finish_fault_iff.2 (storeResult_of_reads_error h)
  | eq a b d => exact finish_fault_iff.2 (storeResult_of_reads_error h)
  | jt a b => exact finish_fault_iff.2 (jumpWhen_of_reads_error h)
  | jf a b => exact finish_fault_iff.2 (jumpWhen_of_reads_error h)
  | inp d => exact finish_fault_iff.2 (bind_error_iff.2 (.inl h))
  | out a => exact finish_fault_iff.2 (bind_error_iff.2 (.inl h))
  | arb a => exact finish_fault_iff.2 (bind_error_iff.2 (.inl h))
  | hlt => exact h.elim

/-! ## Parameter words -/

/-- The lowest parameter address at or past MAX_LEN is MAX_LEN, or `ip + 1` where that is past it already. -/
theorem readParamWords_capacity {n : Nat} {s : State} (h : ¬paramsFit (n + 1) s) :
    readParamWords (n + 1) s = .error (.capacityExceeded (max (s.ip + 1) s.cfg.maxLen) s.ip) := by
  induction n with
  | zero =>
    have hread : memRead (s.ip + 1) s = .error (.capacityExceeded (s.ip + 1) s.ip) :=
      memRead_error_iff.2 ⟨by omega, rfl⟩
    rw [readParamWords, readParamWords]
    simp only [Nat.zero_add, hread]
    rw [max_eq_left (by omega)]
  | succ n ih =>
    rw [readParamWords]
    by_cases hn : paramsFit (n + 1) s
    · have hread : ∀ m, memRead (s.ip + (n + 1 + 1)) (withLen m s) =
          .error (.capacityExceeded (s.ip + (n + 1 + 1)) s.ip) :=
        fun m => memRead_error_iff.2 ⟨by simpa using h, rfl⟩
      simp only [readParamWords_ok_iff.2 ⟨hn, rfl⟩, withLen_ip, hread]
      rw [show s.ip + (n + 1 + 1) = max (s.ip + 1) s.cfg.maxLen by omega]
    · simp only [ih hn]

/-- An instruction whose parameter words do not all fit faults at the first that does not. -/
theorem accessesFault_paramWord {i : Instr} {s : State} (hp : i.params ≠ [])
    (hd : ∀ d, i.dst = some d → d.mode ≠ .immediate) (hfit : ¬paramsFit i.params.length s) :
    accessesFault i s (.capacityExceeded (max (s.ip + 1) s.cfg.maxLen) s.ip) := by
  have storing (a b d : Param) (hd : d.mode ≠ .immediate) (hfit : ¬paramsFit 3 s) :
      readTwoAndDst a b d s = .error (.capacityExceeded (max (s.ip + 1) s.cfg.maxLen) s.ip) := by
    rw [readTwoAndDst, checkDst_ok_iff (u := ()).2 hd, ok_bind, readParamWords_capacity hfit, error_bind]
  cases i with
  | add a b d => exact storing a b d (hd d rfl) hfit
  | mul a b d => exact storing a b d (hd d rfl) hfit
  | lt a b d => exact storing a b d (hd d rfl) hfit
  | eq a b d => exact storing a b d (hd d rfl) hfit
  | inp d =>
    exact bind_error_iff.2 (.inr ⟨(), checkDst_ok_iff.2 (hd d rfl),
      bind_error_iff.2 (.inl (readParamWords_capacity hfit))⟩)
  | out a => exact bind_error_iff.2 (.inl (readParamWords_capacity hfit))
  | arb a => exact bind_error_iff.2 (.inl (readParamWords_capacity hfit))
  | jt a b => exact bind_error_iff.2 (.inl (readParamWords_capacity hfit))
  | jf a b => exact bind_error_iff.2 (.inl (readParamWords_capacity hfit))
  | hlt => exact absurd rfl hp

/-! ## Operands -/

/-- The read parameter at place `k` of the list is the lowest whose effective address is at or past MAX_LEN. -/
structure LowestPastCapacity (reads : List Param) (k : Nat) (p : Param) (s : State) : Prop where
  /-- Where the parameter stands among the reads. -/
  at_k : reads[k]? = some p
  /-- Its value is in a cell (R57). -/
  notLiteral : p.mode ≠ .immediate
  /-- The cell is one memory cannot reach (R37). -/
  past : (s.cfg.maxLen : Int) ≤ paramSum s.rb p
  /-- Every operand read before it delivers a value. -/
  lowerReadable : ∀ j q, j < k → reads[j]? = some q → readable q s

theorem LowestPastCapacity.le_addrOf {reads : List Param} {k : Nat} {p : Param} {s : State}
    (h : LowestPastCapacity reads k p s) : s.cfg.maxLen ≤ addrOf p s := by
  have := h.past
  unfold addrOf
  omega

/-- The one operand read of an instruction faults where the parameter's address is past MAX_LEN. -/
theorem operand_of_lowestPastCapacity {a p : Param} {k n : Nat} {s : State} (h : LowestPastCapacity [a] k p s) :
    operand (sourceOf a s) (withLen n s) = .error (.capacityExceeded (addrOf p s) s.ip) := by
  cases k with
  | zero =>
    obtain rfl : a = p := Option.some.inj h.at_k
    exact operand_capacity h.notLiteral h.le_addrOf
  | succ k => nomatch h.at_k

/-- Of two operand reads in order, whatever follows them, the lower one past MAX_LEN faults. -/
theorem operands_of_lowestPastCapacity {β : Type} {a b p : Param} {k n : Nat} {s : State}
    (h : LowestPastCapacity [a, b] k p s) (next : Int × State → Int × State → Except Fault β) :
    (operand (sourceOf a s) (withLen n s) >>= fun x => operand (sourceOf b s) x.2 >>= next x) =
      .error (.capacityExceeded (addrOf p s) s.ip) := by
  rw [bind_error_iff]
  match k with
  | 0 =>
    obtain rfl : a = p := Option.some.inj h.at_k
    exact .inl (operand_capacity h.notLiteral h.le_addrOf)
  | 1 =>
    obtain rfl : b = p := Option.some.inj h.at_k
    have ha := readable_iff.1 (h.lowerReadable 0 a (by decide) rfl)
    exact .inr ⟨_, operand_ok_iff.2 ⟨ha.2, rfl, rfl⟩,
      bind_error_iff.2 (.inl (operand_capacity h.notLiteral h.le_addrOf))⟩
  | k + 2 => nomatch h.at_k

theorem locate_withLen (p : Param) (n : Nat) (s : State) : locate p (withLen n s) = locate p s := rfl
theorem effAddr_withLen (p : Param) (n : Nat) (s : State) : effAddr p (withLen n s) = effAddr p s := rfl

theorem readOne_of_lowestPastCapacity {a p : Param} {k : Nat} {s : State} (hfit : paramsFit 1 s)
    (haddr : ∀ q ∈ [a], q.mode = .immediate ∨ 0 ≤ paramSum s.rb q) (h : LowestPastCapacity [a] k p s) :
    readOne a s = .error (.capacityExceeded (addrOf p s) s.ip) := by
  have ha := haddr a List.mem_cons_self
  rw [readOne, readParamWords_ok_iff.2 ⟨hfit, rfl⟩, ok_bind, locate_withLen, locate_ok_iff.2 ⟨ha, rfl⟩, ok_bind]
  exact operand_of_lowestPastCapacity h

theorem readTwo_of_lowestPastCapacity {a b p : Param} {k : Nat} {s : State} (hfit : paramsFit 2 s)
    (haddr : ∀ q ∈ [a, b], q.mode = .immediate ∨ 0 ≤ paramSum s.rb q)
    (h : LowestPastCapacity [a, b] k p s) : readTwo a b s = .error (.capacityExceeded (addrOf p s) s.ip) := by
  simp only [List.forall_mem_cons] at haddr
  obtain ⟨ha, hb, -⟩ := haddr
  rw [readTwo, readParamWords_ok_iff.2 ⟨hfit, rfl⟩, ok_bind, locate_withLen, locate_ok_iff.2 ⟨ha, rfl⟩,
    ok_bind, locate_withLen, locate_ok_iff.2 ⟨hb, rfl⟩, ok_bind]
  exact operands_of_lowestPastCapacity h _

theorem readTwoAndDst_of_lowestPastCapacity {a b d p : Param} {k : Nat} {s : State} (hfit : paramsFit 3 s)
    (hm : d.mode ≠ .immediate) (haddr : ∀ q ∈ [a, b, d], q.mode = .immediate ∨ 0 ≤ paramSum s.rb q)
    (h : LowestPastCapacity [a, b] k p s) : readTwoAndDst a b d s = .error (.capacityExceeded (addrOf p s) s.ip) := by
  simp only [List.forall_mem_cons] at haddr
  obtain ⟨ha, hb, hd, -⟩ := haddr
  rw [readTwoAndDst, checkDst_ok_iff (u := ()).2 hm, ok_bind, readParamWords_ok_iff.2 ⟨hfit, rfl⟩, ok_bind,
    locate_withLen, locate_ok_iff.2 ⟨ha, rfl⟩, ok_bind, locate_withLen, locate_ok_iff.2 ⟨hb, rfl⟩, ok_bind,
    effAddr_withLen, effAddr_ok_iff.2 ⟨hd.resolve_left hm, rfl⟩, ok_bind]
  exact operands_of_lowestPastCapacity h _

/-- Once parameter words and effective addresses have passed their checks, the lowest operand past MAX_LEN faults. -/
theorem accessesFault_operand {i : Instr} {k : Nat} {p : Param} {s : State} (hfit : paramsFit i.params.length s)
    (hd : ∀ d, i.dst = some d → d.mode ≠ .immediate)
    (haddr : ∀ q ∈ i.params, q.mode = .immediate ∨ 0 ≤ paramSum s.rb q)
    (h : LowestPastCapacity i.reads k p s) : accessesFault i s (.capacityExceeded (addrOf p s) s.ip) := by
  cases i with
  | add a b d => exact readTwoAndDst_of_lowestPastCapacity hfit (hd d rfl) haddr h
  | mul a b d => exact readTwoAndDst_of_lowestPastCapacity hfit (hd d rfl) haddr h
  | lt a b d => exact readTwoAndDst_of_lowestPastCapacity hfit (hd d rfl) haddr h
  | eq a b d => exact readTwoAndDst_of_lowestPastCapacity hfit (hd d rfl) haddr h
  | jt a b => exact readTwo_of_lowestPastCapacity hfit haddr h
  | jf a b => exact readTwo_of_lowestPastCapacity hfit haddr h
  | out a => exact readOne_of_lowestPastCapacity hfit haddr h
  | arb a => exact readOne_of_lowestPastCapacity hfit haddr h
  | inp d => nomatch h.at_k
  | hlt => nomatch h.at_k

/-- Settles O27: both clauses are faults of the instruction's accesses. -/
theorem parameterWordPastCapacityFaults : Obligations.ParameterWordPastCapacityFaults :=
  ⟨fun _ _ hp hd hfit => exec_of_accessesFault (accessesFault_paramWord hp hd hfit),
    fun _ _ _ _ hfit hd haddr hk hm hcap hlow =>
      exec_of_accessesFault (accessesFault_operand hfit hd haddr ⟨hk, hm, hcap, hlow⟩)⟩

end Sys2Proof.Machine
end

section
/-! The decoder (30_encoding.md R49 to R63): the opcode and mode tables, what an instruction word decodes to, and the order of
its checks. -/

namespace Sys2Proof.Machine

/-! ## The opcode and mode tables -/

theorem ofCode_eq_some_iff {n : Nat} {op : Opcode} : Opcode.ofCode n = some op ↔ n = op.code := by
  constructor
  · intro h
    unfold Opcode.ofCode at h
    split at h <;> cases h <;> rfl
  · rintro rfl
    cases op <;> rfl

theorem ofDigit_eq_some_iff {n : Nat} {m : Mode} : Mode.ofDigit n = some m ↔ n = m.digit := by
  constructor
  · intro h
    unfold Mode.ofDigit at h
    split at h <;> cases h <;> rfl
  · rintro rfl
    cases m <;> rfl

theorem code_lt (op : Opcode) : op.code < 100 := by cases op <;> decide

theorem mode_digit_le (m : Mode) : m.digit ≤ 2 := by cases m <;> decide

/-- The ten defined opcode fields (R51, R52). -/
theorem exists_code_iff (n : Nat) :
    (∃ op : Opcode, n = op.code) ↔ (n : Int) ∈ ([1, 2, 3, 4, 5, 6, 7, 8, 9, 99] : List Int) := by
  constructor
  · rintro ⟨op, rfl⟩
    cases op <;> decide
  · intro h
    have hdefined : ∀ m ∈ ([1, 2, 3, 4, 5, 6, 7, 8, 9, 99] : List Nat), (Opcode.ofCode m).isSome := by decide
    have hn : n ∈ ([1, 2, 3, 4, 5, 6, 7, 8, 9, 99] : List Nat) := by
      simp only [List.mem_cons, List.not_mem_nil, or_false] at h ⊢
      omega
    obtain ⟨op, hop⟩ := Option.isSome_iff_exists.1 (hdefined n hn)
    exact ⟨op, ofCode_eq_some_iff.1 hop⟩

/-- The three legal mode digits (R57). -/
theorem exists_digit_iff (n : Nat) : (∃ m : Mode, n = m.digit) ↔ (n : Int) ∈ ([0, 1, 2] : List Int) := by
  constructor
  · rintro ⟨m, rfl⟩
    cases m <;> decide
  · intro h
    simp only [List.mem_cons, List.not_mem_nil, or_false] at h
    rcases h with h | h | h
    · exact ⟨.position, by exact_mod_cast h⟩
    · exact ⟨.immediate, by exact_mod_cast h⟩
    · exact ⟨.relative, by exact_mod_cast h⟩

/-! ## The checks of an instruction word -/

theorem decodeMode_ok_iff {n place k : Nat} {m : Mode} : decodeMode n place k = .ok m ↔ digit n place = m.digit := by
  rw [← ofDigit_eq_some_iff, decodeMode]
  split <;> simp [*]

theorem decodeMode_of_illegal {n place k : Nat} (h : ¬∃ m : Mode, digit n place = m.digit) :
    decodeMode n place k = .error (.invalidAddressingMode k) := by
  cases hd : decodeMode n place k with
  | ok m => exact absurd ⟨m, decodeMode_ok_iff.1 hd⟩ h
  | error e =>
    unfold decodeMode at hd
    split at hd <;> cases hd
    rfl

theorem decodeWord_of_neg {w : Int} (h : w < 0) : decodeWord w = .error .invalidOpcode := if_pos h

theorem decodeWord_of_undefined {n : Nat} (h : ¬∃ op : Opcode, n % 100 = op.code) :
    decodeWord (n : Int) = .error .invalidOpcode := by
  have hnone : Opcode.ofCode (n % 100) = none :=
    Option.eq_none_iff_forall_not_mem.2 fun op hop => h ⟨op, ofCode_eq_some_iff.1 hop⟩
  simp [decodeWord, hnone]

/-- After the sign and the opcode come the mode digits in order, and then the high digits (R53). -/
theorem decodeWord_of_code {n : Nat} {op : Opcode} (h : n % 100 = op.code) :
    decodeWord (n : Int) =
      (decodeMode n 2 1 >>= fun m1 => decodeMode n 3 2 >>= fun m2 => decodeMode n 4 3 >>= fun m3 =>
        if n / 100000 ≠ 0 then .error (.invalidAddressingMode 4) else .ok ⟨op, m1, m2, m3⟩) := by
  rw [decodeWord, if_neg (by omega), Int.toNat_natCast, ofCode_eq_some_iff.2 h]

/-- A word decodes to the fields its decimal digits name, and to nothing when there are digits above them. -/
theorem decodeWord_natCast_ok_iff {n : Nat} {f : Fields} :
    decodeWord (n : Int) = .ok f ↔
      n % 100 = f.op.code ∧ digit n 2 = f.m1.digit ∧ digit n 3 = f.m2.digit ∧ digit n 4 = f.m3.digit ∧
        n / 100000 = 0 := by
  by_cases hop : ∃ op : Opcode, n % 100 = op.code
  · obtain ⟨op, hop⟩ := hop
    have hhigh (g : Fields) :
        (if n / 100000 ≠ 0 then .error (.invalidAddressingMode 4) else .ok g) = (.ok f : Except DecodeFault Fields) ↔
          n / 100000 = 0 ∧ f = g := by
      split
      · rename_i h; exact ⟨fun h' => (nomatch h'), fun h' => absurd h'.1 h⟩
      · rename_i h; rw [ok_iff]; exact ⟨fun h' => ⟨not_not.1 h, h'⟩, fun h' => h'.2⟩
    rw [decodeWord_of_code hop]
    simp only [bind_ok_iff, decodeMode_ok_iff, hhigh]
    constructor
    · rintro ⟨m1, h1, m2, h2, m3, h3, h4, rfl⟩
      exact ⟨hop, h1, h2, h3, h4⟩
    · obtain ⟨op', m1, m2, m3⟩ := f
      rintro ⟨h0, h1, h2, h3, h4⟩
      obtain rfl : op' = op :=
        Option.some.inj ((ofCode_eq_some_iff.2 h0).symm.trans (ofCode_eq_some_iff.2 hop))
      exact ⟨m1, h1, m2, h2, m3, h3, h4, rfl⟩
  · rw [decodeWord_of_undefined hop]
    exact ⟨fun h => (nomatch h), fun h => absurd ⟨f.op, h.1⟩ hop⟩

/-! ## Words and fields -/

/-- Settles O3: the digits of a number below 100000 determine it, and a word with fields in range has these digits. -/
theorem decodableWordsAreTheDigitForms : Obligations.DecodableWordsAreTheDigitForms := by
  intro w f
  have hop := code_lt f.op
  have h1 := mode_digit_le f.m1
  have h2 := mode_digit_le f.m2
  have h3 := mode_digit_le f.m3
  rcases lt_or_ge w 0 with hw | hw
  · rw [decodeWord_of_neg hw]
    exact ⟨fun h => (nomatch h), fun h => by omega⟩
  · obtain ⟨n, rfl⟩ := Int.eq_ofNat_of_zero_le hw
    rw [decodeWord_natCast_ok_iff]
    simp only [digit]
    omega

/-- The canonical fields of an instruction: a parameter it does not have is in Position mode (R62). -/
def canonicalFields (i : Instr) : Fields :=
  ⟨i.opcode, (i.params[0]?.map Param.mode).getD .position, (i.params[1]?.map Param.mode).getD .position,
    (i.params[2]?.map Param.mode).getD .position⟩

theorem modeDigitAt_eq (ps : List Param) (k : Nat) :
    modeDigitAt ps k = ((ps[k]?.map Param.mode).getD .position).digit := by
  unfold modeDigitAt
  cases ps[k]? <;> rfl

theorem decodeWord_word (i : Instr) : decodeWord i.word = .ok (canonicalFields i) := by
  rw [decodableWordsAreTheDigitForms, Instr.word, modeDigitAt_eq, modeDigitAt_eq, modeDigitAt_eq]
  push_cast
  rfl

theorem decode_of_decodeWord {w : Int} {f : Fields} (h : decodeWord w = .ok f) (ps : List Int) :
    decode w ps = .ok (assemble f (ps.getD 0 0) (ps.getD 1 0) (ps.getD 2 0)) := by
  rw [decode, h]

/-- Settles O2: the canonical word decodes to the canonical fields, and each opcode takes its own parameter words. -/
theorem decodingAnEncodingReturnsTheInstruction : Obligations.DecodingAnEncodingReturnsTheInstruction := by
  intro i rest
  rw [decode_of_decodeWord (decodeWord_word i)]
  cases i <;> rfl

/-! ## The order of the checks -/

/-- The mode digits of a word, as R53 writes them. -/
theorem digit_cast (n place : Nat) : ((digit n place : Nat) : Int) = (n : Int) / (10 ^ place : Nat) % 10 := by
  unfold digit
  push_cast
  rfl

theorem legalMode_iff (n place : Nat) :
    (n : Int) / (10 ^ place : Nat) % 10 ∈ ([0, 1, 2] : List Int) ↔ ∃ m : Mode, digit n place = m.digit := by
  rw [← digit_cast, exists_digit_iff]

theorem legalOpcode_iff (n : Nat) :
    (n : Int) % 100 ∈ ([1, 2, 3, 4, 5, 6, 7, 8, 9, 99] : List Int) ↔ ∃ op : Opcode, n % 100 = op.code := by
  rw [exists_code_iff]
  push_cast
  rfl

/-- Settles O4: each clause is the first check that fails, those before it having passed. -/
theorem decoderChecksInOrder : Obligations.DecoderChecksInOrder := by
  intro w
  rcases lt_or_ge w 0 with hw | hw
  · have hn : ¬0 ≤ w := by omega
    exact ⟨decodeWord_of_neg, fun h => absurd h hn, fun h => absurd h hn, fun h => absurd h hn, fun h => absurd h hn,
      fun h => absurd h hn, fun h => absurd h hn⟩
  obtain ⟨n, rfl⟩ := Int.eq_ofNat_of_zero_le hw
  have hmode1 := legalMode_iff n 2
  have hmode2 := legalMode_iff n 3
  have hmode3 := legalMode_iff n 4
  simp only [Nat.reducePow, Nat.cast_ofNat] at hmode1 hmode2 hmode3
  simp only [legalOpcode_iff, hmode1, hmode2, hmode3]
  refine ⟨decodeWord_of_neg, fun _ h => decodeWord_of_undefined h, ?_, ?_, ?_, ?_, ?_⟩
  · rintro - ⟨op, h0⟩ h1
    rw [decodeWord_of_code h0, decodeMode_of_illegal h1, error_bind]
  · rintro - ⟨op, h0⟩ ⟨m1, h1⟩ h2
    rw [decodeWord_of_code h0, decodeMode_ok_iff.2 h1, ok_bind, decodeMode_of_illegal h2, error_bind]
  · rintro - ⟨op, h0⟩ ⟨m1, h1⟩ ⟨m2, h2⟩ h3
    rw [decodeWord_of_code h0, decodeMode_ok_iff.2 h1, ok_bind, decodeMode_ok_iff.2 h2, ok_bind,
      decodeMode_of_illegal h3, error_bind]
  · rintro - ⟨op, h0⟩ ⟨m1, h1⟩ ⟨m2, h2⟩ ⟨m3, h3⟩ h4
    rw [decodeWord_of_code h0, decodeMode_ok_iff.2 h1, ok_bind, decodeMode_ok_iff.2 h2, ok_bind,
      decodeMode_ok_iff.2 h3, ok_bind, if_pos (by omega)]
  · rintro - ⟨op, h0⟩ ⟨m1, h1⟩ ⟨m2, h2⟩ ⟨m3, h3⟩ h4
    refine ⟨⟨op, m1, m2, m3⟩, decodeWord_natCast_ok_iff.2 ⟨h0, h1, h2, h3, by omega⟩, ?_⟩
    simp only [digit] at h1 h2 h3 ⊢
    omega

/-! ## Spare mode digits, and the source's words -/

theorem assemble_congr {f g : Fields} (hop : f.op = g.op) (h1 : 1 ≤ f.op.arity → f.m1 = g.m1)
    (h2 : 2 ≤ f.op.arity → f.m2 = g.m2) (h3 : 3 ≤ f.op.arity → f.m3 = g.m3) (p q r : Int) :
    assemble f p q r = assemble g p q r := by
  obtain ⟨op, m1, m2, m3⟩ := f
  obtain ⟨op', m1', m2', m3'⟩ := g
  obtain rfl : op = op' := hop
  cases op <;> simp_all [assemble, Opcode.arity]

theorem legalModes_of_decodeWord {w : Int} {f : Fields} (h : decodeWord w = .ok f) :
    ∀ place ∈ ([100, 1000, 10000] : List Int), w / place % 10 ∈ ([0, 1, 2] : List Int) := by
  rcases lt_or_ge w 0 with hw | hw
  · rw [decodeWord_of_neg hw] at h
    nomatch h
  obtain ⟨n, rfl⟩ := Int.eq_ofNat_of_zero_le hw
  obtain ⟨-, h1, h2, h3, -⟩ := decodeWord_natCast_ok_iff.1 h
  simp only [List.forall_mem_cons, List.not_mem_nil, false_implies, implies_true, and_true]
  exact ⟨(legalMode_iff n 2).2 ⟨_, h1⟩, (legalMode_iff n 3).2 ⟨_, h2⟩, (legalMode_iff n 4).2 ⟨_, h3⟩⟩

/-- Settles O5: an opcode takes the modes of the parameters it has, after all three digits were found legal. -/
theorem spareModeDigitsAreIgnored : Obligations.SpareModeDigitsAreIgnored := by
  refine ⟨fun v w f g ps hf hg hop h1 h2 h3 => ?_, fun w f h => legalModes_of_decodeWord h, by decide, rfl⟩
  rw [decode_of_decodeWord hf, decode_of_decodeWord hg, assemble_congr hop h1 h2 h3]

/-- Settles O1: the fields of the eleven words are computed, and an opcode takes its own parameter words. -/
theorem sourceWordsDecodeAsListed : Obligations.SourceWordsDecodeAsListed :=
  ⟨by decide, fun _ _ _ => ⟨rfl, rfl, rfl, rfl, rfl, rfl, rfl, rfl, rfl, rfl, rfl⟩⟩

/-! ## Words that do not decode -/

theorem fetchInstr_of_decodeWord_error {s : State} {e : DecodeFault} (hip : s.ip < s.mem.len)
    (h : decodeWord (s.mem.peek s.ip) = .error e) :
    fetchInstr s = .error (DecodeFault.toFault (s.mem.peek s.ip) s.ip e) := by
  simp only [fetchInstr, fetch_ok_iff.2 ⟨hip, rfl⟩, decode, h]

theorem step_of_decodeWord_error {s : State} {e : DecodeFault} (hx : executing s) (hip : s.ip < s.mem.len)
    (h : decodeWord (s.mem.peek s.ip) = .error e) :
    step s = .fault (DecodeFault.toFault (s.mem.peek s.ip) s.ip e) := by
  rw [step_executing hx, fetchInstr_of_decodeWord_error hip h]

/-- Settles O8: the decoder's fault is that of the step, with the word and `ip` recorded. -/
theorem undecodableWordFaults : Obligations.UndecodableWordFaults := fun _ hx hip =>
  ⟨step_of_decodeWord_error hx hip, fun _ => step_of_decodeWord_error hx hip⟩

end Sys2Proof.Machine
end

section
/-! Addresses a pipeline refuses (R58, R60, R100): an Immediate destination before everything else, and of the effective
addresses below 0 the lowest parameter's, before any operand is read. -/

namespace Sys2Proof.Machine

theorem checkDst_immediate {k : Nat} {d : Param} {s : State} (h : d.mode = .immediate) :
    checkDst k d s = .error (.illegalImmediateWrite s.ip k) := by
  rw [checkDst, h]

theorem readTwoAndDst_immediate {a b d : Param} {s : State} (h : d.mode = .immediate) :
    readTwoAndDst a b d s = .error (.illegalImmediateWrite s.ip 3) :=
  bind_error_iff.2 (.inl (checkDst_immediate h))

theorem dstOnly_immediate {d : Param} {s : State} (h : d.mode = .immediate) :
    dstOnly d s = .error (.illegalImmediateWrite s.ip 1) :=
  bind_error_iff.2 (.inl (checkDst_immediate h))

/-- Settles O26: the destination check is the first stage of the two pipelines that have a destination. -/
theorem immediateDestinationFaultsFirst : Obligations.ImmediateDestinationFaultsFirst := fun _ _ _ _ h =>
  ⟨exec_of_accessesFault (readTwoAndDst_immediate h), exec_of_accessesFault (readTwoAndDst_immediate h),
    exec_of_accessesFault (readTwoAndDst_immediate h), exec_of_accessesFault (readTwoAndDst_immediate h),
    exec_of_accessesFault (dstOnly_immediate h)⟩

/-! ## Negative effective addresses -/

theorem effAddr_negative {p : Param} {s : State} (h : paramSum s.rb p < 0) :
    effAddr p s = .error (.negativeAddress (paramSum s.rb p) s.ip) := if_pos h

theorem locate_negative {p : Param} {s : State} (hm : p.mode ≠ .immediate) (h : paramSum s.rb p < 0) :
    locate p s = .error (.negativeAddress (paramSum s.rb p) s.ip) := by
  cases hl : locate p s with
  | ok l =>
    obtain ⟨hm' | h', -⟩ := locate_ok_iff.1 hl
    · exact absurd hm' hm
    · omega
  | error f => rw [locate_error hl]

/-- The parameter at place `k` of the list is the lowest whose effective address is negative. -/
structure LowestNegative (params : List Param) (k : Nat) (p : Param) (s : State) : Prop where
  /-- Where the parameter stands. -/
  at_k : params[k]? = some p
  /-- It designates an address (R57). -/
  notLiteral : p.mode ≠ .immediate
  /-- The address is below 0 (R58). -/
  negative : paramSum s.rb p < 0
  /-- No parameter before it has such an address. -/
  lowerFine : ∀ j q, j < k → params[j]? = some q → q.mode = .immediate ∨ 0 ≤ paramSum s.rb q

theorem LowestNegative.tail {a p : Param} {ps : List Param} {k : Nat} {s : State}
    (h : LowestNegative (a :: ps) (k + 1) p s) : LowestNegative ps k p s :=
  ⟨h.at_k, h.notLiteral, h.negative, fun j q hj hq => h.lowerFine (j + 1) q (by omega) hq⟩

/-- The address check of a first read parameter: it is the negative one, or it passes and the rest holds the negative
one. -/
theorem locate_bind_negative {β : Type} {a p : Param} {ps : List Param} {k n : Nat} {s : State}
    {next : Source → Except Fault β} (h : LowestNegative (a :: ps) k p s)
    (hnext : ∀ k, LowestNegative ps k p s → next (sourceOf a s) = .error (.negativeAddress (paramSum s.rb p) s.ip)) :
    (locate a (withLen n s) >>= next) = .error (.negativeAddress (paramSum s.rb p) s.ip) := by
  rw [locate_withLen]
  cases k with
  | zero =>
    obtain rfl : a = p := Option.some.inj h.at_k
    rw [locate_negative h.notLiteral h.negative, error_bind]
  | succ k =>
    rw [locate_ok_iff.2 ⟨h.lowerFine 0 a (by omega) rfl, rfl⟩, ok_bind]
    exact hnext k h.tail

/-- The address check of a destination, the last parameter. -/
theorem effAddr_bind_negative {β : Type} {d p : Param} {k n : Nat} {s : State} {next : Nat → Except Fault β}
    (h : LowestNegative [d] k p s) :
    (effAddr d (withLen n s) >>= next) = .error (.negativeAddress (paramSum s.rb p) s.ip) := by
  cases k with
  | zero =>
    obtain rfl : d = p := Option.some.inj h.at_k
    rw [effAddr_withLen, effAddr_negative h.negative, error_bind]
  | succ k => nomatch h.at_k

theorem not_lowestNegative_nil {k : Nat} {p : Param} {s : State} : ¬LowestNegative [] k p s := fun h => nomatch h.at_k

theorem readOne_of_lowestNegative {a p : Param} {k : Nat} {s : State} (hfit : paramsFit 1 s)
    (h : LowestNegative [a] k p s) : readOne a s = .error (.negativeAddress (paramSum s.rb p) s.ip) := by
  rw [readOne, readParamWords_ok_iff.2 ⟨hfit, rfl⟩, ok_bind]
  exact locate_bind_negative h fun _ h' => absurd h' not_lowestNegative_nil

theorem readTwo_of_lowestNegative {a b p : Param} {k : Nat} {s : State} (hfit : paramsFit 2 s)
    (h : LowestNegative [a, b] k p s) : readTwo a b s = .error (.negativeAddress (paramSum s.rb p) s.ip) := by
  rw [readTwo, readParamWords_ok_iff.2 ⟨hfit, rfl⟩, ok_bind]
  exact locate_bind_negative h fun _ h => locate_bind_negative h fun _ h => absurd h not_lowestNegative_nil

theorem readTwoAndDst_of_lowestNegative {a b d p : Param} {k : Nat} {s : State} (hfit : paramsFit 3 s)
    (hm : d.mode ≠ .immediate) (h : LowestNegative [a, b, d] k p s) :
    readTwoAndDst a b d s = .error (.negativeAddress (paramSum s.rb p) s.ip) := by
  rw [readTwoAndDst, checkDst_ok_iff (u := ()).2 hm, ok_bind, readParamWords_ok_iff.2 ⟨hfit, rfl⟩, ok_bind]
  exact locate_bind_negative h fun _ h => locate_bind_negative h fun _ h => effAddr_bind_negative h

theorem dstOnly_of_lowestNegative {d p : Param} {k : Nat} {s : State} (hfit : paramsFit 1 s)
    (hm : d.mode ≠ .immediate) (h : LowestNegative [d] k p s) :
    dstOnly d s = .error (.negativeAddress (paramSum s.rb p) s.ip) := by
  rw [dstOnly, checkDst_ok_iff (u := ()).2 hm, ok_bind, readParamWords_ok_iff.2 ⟨hfit, rfl⟩, ok_bind]
  exact effAddr_bind_negative h

theorem accessesFault_negative {i : Instr} {k : Nat} {p : Param} {s : State} (hfit : paramsFit i.params.length s)
    (hd : ∀ d, i.dst = some d → d.mode ≠ .immediate) (h : LowestNegative i.params k p s) :
    accessesFault i s (.negativeAddress (paramSum s.rb p) s.ip) := by
  cases i with
  | add a b d => exact readTwoAndDst_of_lowestNegative hfit (hd d rfl) h
  | mul a b d => exact readTwoAndDst_of_lowestNegative hfit (hd d rfl) h
  | lt a b d => exact readTwoAndDst_of_lowestNegative hfit (hd d rfl) h
  | eq a b d => exact readTwoAndDst_of_lowestNegative hfit (hd d rfl) h
  | inp d => exact dstOnly_of_lowestNegative hfit (hd d rfl) h
  | jt a b => exact readTwo_of_lowestNegative hfit h
  | jf a b => exact readTwo_of_lowestNegative hfit h
  | out a => exact readOne_of_lowestNegative hfit h
  | arb a => exact readOne_of_lowestNegative hfit h
  | hlt => exact absurd h not_lowestNegative_nil

/-- Settles O28: the address checks run in the order of the parameters, between the parameter words and the operands. -/
theorem lowestNegativeAddressIsReported : Obligations.LowestNegativeAddressIsReported :=
  fun _ _ _ _ hfit hd hk hm hneg hlow => exec_of_accessesFault (accessesFault_negative hfit hd ⟨hk, hm, hneg, hlow⟩)

end Sys2Proof.Machine
end

section
/-! The pseudo-instructions of R65. -/

namespace Sys2Proof.Machine

theorem storesAndGoesOn_of_next {i : Instr} {a b d : Param} {v : Int} {s : State} (hm : s.mem.wf = true)
    (h : exec i s = .next (storedState a b d v s)) : storesAndGoesOn i a b d v s :=
  ⟨_, h, storedState_storedAt hm a b d v, rfl⟩

theorem readable_lit (v : Int) (s : State) : readable (.lit v) s := .inl rfl

@[simp] theorem valueOf_lit (v : Int) (s : State) : valueOf (.lit v) s = v := rfl

theorem exec_mov {p d : Param} {s : State} (hr : storeReady p (.lit 0) d s) (hw : s.cfg.InWord (valueOf p s)) :
    exec (.mov p d) s = .next (storedState p (.lit 0) d (valueOf p s) s) := by
  have hv : valueOf p s + valueOf (.lit 0) s = valueOf p s := by simp
  exact execAdd_next_iff.2 ⟨hr, hv.symm ▸ hw, by rw [hv]⟩

theorem exec_neg {p d : Param} {s : State} (hr : storeReady p (.lit (-1)) d s) (hw : s.cfg.InWord (-valueOf p s)) :
    exec (.neg p d) s = .next (storedState p (.lit (-1)) d (-valueOf p s) s) := by
  have hv : valueOf p s * valueOf (.lit (-1)) s = -valueOf p s := by simp
  exact execMul_next_iff.2 ⟨hr, hv.symm ▸ hw, by rw [hv]⟩

theorem exec_not01 {p d : Param} {s : State} (hr : storeReady p (.lit 0) d s) :
    exec (.not01 p d) s = .next (storedState p (.lit 0) d (if valueOf p s = 0 then 1 else 0) s) :=
  execEq_next_iff.2 ⟨hr, by rw [boolWord_equals, valueOf_lit]⟩

theorem exec_jmp {p : Param} {s : State} (hfit : paramsFit 2 s) (hp : readable p s) (h : 0 ≤ valueOf p s) :
    exec (.jmp p) s = .next { withLen (lenAfterReads s 2 [.lit 1, p]) s with ip := (valueOf p s).toNat } :=
  execJt_next_iff.2 ⟨⟨hfit, readable_lit 1 s, hp⟩, by rw [if_pos (by simp)]; exact ⟨h, rfl⟩⟩

/-- A literal has no cell that memory must reach. -/
theorem lenAfterReads_lit (s : State) (n : Nat) (v : Int) (reads : List Param) :
    lenAfterReads s n (.lit v :: reads) = lenAfterReads s n reads := by
  rw [lenAfterReads, List.foldl_cons, show reachOf (.lit v) s = 0 from rfl, Nat.max_zero, lenAfterReads]

/-- Settles O22: each expansion is the instruction it is, with a literal for an operand. -/
theorem pseudoInstructionsDoAsNamed : Obligations.PseudoInstructionsDoAsNamed := by
  intro s p d _ hm hfit hp hd hw
  have ready (v : Int) : storeReady p (.lit v) d s := ⟨hd, hfit, hp, readable_lit v s⟩
  refine ⟨storesAndGoesOn_of_next hm (exec_mov (ready 0) hw), ?_,
    fun hn => storesAndGoesOn_of_next hm (exec_neg (ready (-1)) hn),
    fun h0 => storesAndGoesOn_of_next hm ?_, fun h0 => storesAndGoesOn_of_next hm ?_, fun h0 => ?_⟩
  · have hclr : storeReady (.lit 0) (.lit 0) d s := ⟨hd, hfit, readable_lit 0 s, readable_lit 0 s⟩
    exact storesAndGoesOn_of_next hm (exec_mov hclr (isWord_zero _))
  · rw [exec_not01 (ready 0), if_pos h0]
  · rw [exec_not01 (ready 0), if_neg h0]
  · exact ⟨_, exec_jmp (by omega) hp h0, Int.toNat_of_nonneg h0, ⟨fun _ => rfl, lenAfterReads_lit s 2 1 [p]⟩, rfl⟩

end Sys2Proof.Machine
end

section
/-! The loader reads back a listing (R64, R114): the decimal text of a number, the tokens between commas, and trimming. -/

namespace Sys2Proof.Machine

/-! ## Numbers -/

theorem digitValue_digitChar : ∀ d < 10, digitValue (digitChar d) = some d := by decide

theorem digitChar_ne_sign : ∀ d < 10, digitChar d ≠ '-' ∧ digitChar d ≠ '+' := by decide

theorem parseDigits_digitChar {d : Nat} (hd : d < 10) (acc : Nat) (cs : List Char) :
    parseDigits acc (digitChar d :: cs) = parseDigits (10 * acc + d) cs := by
  rw [parseDigits, digitValue_digitChar d hd]

/-- Reading the digits of `n` brings the value read so far from 0 to `n`. -/
theorem parseDigits_natChars {fuel n : Nat} (h : n < 2 ^ fuel) (cs : List Char) :
    parseDigits 0 (natChars fuel n ++ cs) = parseDigits n cs := by
  induction fuel generalizing n cs with
  | zero =>
    obtain rfl : n = 0 := by omega
    rfl
  | succ fuel ih =>
    rw [natChars]
    split
    · rename_i hn
      rw [List.singleton_append, parseDigits_digitChar hn, Nat.mul_zero, Nat.zero_add]
    · have hdiv : n / 10 < 2 ^ fuel := by omega
      rw [List.append_assoc, ih hdiv, List.singleton_append, parseDigits_digitChar (by omega), Nat.div_add_mod]

/-- The text of a number begins with a digit. -/
theorem natChars_eq_cons (fuel n : Nat) : ∃ d < 10, ∃ cs, natChars (fuel + 1) n = digitChar d :: cs := by
  induction fuel generalizing n with
  | zero =>
    rw [natChars]
    split
    · rename_i hn; exact ⟨n, hn, [], rfl⟩
    · exact ⟨n % 10, by omega, [], rfl⟩
  | succ fuel ih =>
    rw [natChars]
    split
    · rename_i hn; exact ⟨n, hn, [], rfl⟩
    · obtain ⟨d, hd, cs, hcs⟩ := ih (n / 10)
      exact ⟨d, hd, cs ++ [digitChar (n % 10)], by rw [hcs, List.cons_append]⟩

theorem parseNat_natChars (n : Nat) : parseNat (natChars (n.log2 + 1) n) = some n := by
  have h := parseDigits_natChars (Nat.lt_log2_self (n := n)) []
  rw [List.append_nil] at h
  obtain ⟨d, -, cs, hcs⟩ := natChars_eq_cons n.log2 n
  rw [hcs] at h ⊢
  exact h

/-- A text that begins with a digit has no sign. -/
theorem parseInt_digitChar {d n : Nat} {cs : List Char} (hd : d < 10) (h : parseNat (digitChar d :: cs) = some n) :
    parseInt (digitChar d :: cs) = some (n : Int) := by
  obtain ⟨hminus, hplus⟩ := digitChar_ne_sign d hd
  unfold parseInt
  split
  · rename_i heq; exact absurd (List.cons.inj heq).1 hminus
  · rename_i heq; exact absurd (List.cons.inj heq).1 hplus
  · rw [h]; rfl

theorem parseInt_intChars (v : Int) : parseInt (intChars v) = some v := by
  have hnat := parseNat_natChars v.natAbs
  unfold intChars
  split
  · rw [parseInt, hnat]
    exact congrArg some (show -(v.natAbs : Int) = v by omega)
  · obtain ⟨d, hd, cs, hcs⟩ := natChars_eq_cons v.natAbs.log2 v.natAbs
    rw [hcs] at hnat ⊢
    rw [parseInt_digitChar hd hnat]
    exact congrArg some (by omega)

/-! ## Tokens -/

theorem mem_natChars {fuel n : Nat} {c : Char} (h : c ∈ natChars fuel n) : ∃ d < 10, c = digitChar d := by
  induction fuel generalizing n with
  | zero => nomatch h
  | succ fuel ih =>
    rw [natChars] at h
    split at h
    · rename_i hn; exact ⟨n, hn, List.mem_singleton.1 h⟩
    · rcases List.mem_append.1 h with h | h
      · exact ih h
      · exact ⟨n % 10, by omega, List.mem_singleton.1 h⟩

theorem mem_intChars {v : Int} {c : Char} (h : c ∈ intChars v) : c = '-' ∨ ∃ d < 10, c = digitChar d := by
  unfold intChars at h
  split at h
  · exact (List.mem_cons.1 h).imp id mem_natChars
  · exact .inr (mem_natChars h)

theorem intChars_plain {v : Int} {c : Char} (h : c ∈ intChars v) : isBlank c = false ∧ c ≠ ',' := by
  have digits : ∀ d < 10, isBlank (digitChar d) = false ∧ digitChar d ≠ ',' := by decide
  obtain rfl | ⟨d, hd, rfl⟩ := mem_intChars h
  · decide
  · exact digits d hd

theorem trim_of_noBlank {t : List Char} (h : ∀ c ∈ t, isBlank c = false) : trim t = t := by
  have keep (l : List Char) (hl : ∀ c ∈ l, isBlank c = false) : l.dropWhile isBlank = l := by
    cases l with
    | nil => rfl
    | cons c cs => rw [List.dropWhile_cons, hl c List.mem_cons_self]; rfl
  rw [trim, keep t h, keep t.reverse fun c hc => h c (List.mem_reverse.1 hc), List.reverse_reverse]

theorem parseToken_intChars {W : Nat} {v : Int} (h : IsWord W v) : parseToken W (intChars v) = .ok v := by
  rw [parseToken, trim_of_noBlank fun _ hc => (intChars_plain hc).1, parseInt_intChars]
  exact if_pos h

theorem parseTokens_map_intChars {W : Nat} {image : List Int} (h : ∀ v ∈ image, IsWord W v) :
    parseTokens W (image.map intChars) = .ok image := by
  induction image with
  | nil => rfl
  | cons v vs ih =>
    obtain ⟨hv, hvs⟩ := List.forall_mem_cons.1 h
    simp only [List.map_cons, parseTokens, parseToken_intChars hv, ih hvs]

/-! ## Listings -/

theorem splitComma_of_noComma {t : List Char} (h : ∀ c ∈ t, c ≠ ',') : splitComma t = [t] := by
  induction t with
  | nil => rfl
  | cons c cs ih =>
    obtain ⟨hc, hcs⟩ := List.forall_mem_cons.1 h
    rw [splitComma, if_neg hc, ih hcs]

theorem splitComma_append {t : List Char} (h : ∀ c ∈ t, c ≠ ',') (rest : List Char) :
    splitComma (t ++ ',' :: rest) = t :: splitComma rest := by
  induction t with
  | nil => rfl
  | cons c cs ih =>
    obtain ⟨hc, hcs⟩ := List.forall_mem_cons.1 h
    rw [List.cons_append, splitComma, if_neg hc, ih hcs]

/-- The tokens of a listing are the texts of its words. -/
theorem splitComma_renderListing {image : List Int} (h : image ≠ []) :
    splitComma (renderListing image) = image.map intChars := by
  fun_induction renderListing image with
  | case1 => exact absurd rfl h
  | case2 v => exact splitComma_of_noComma fun _ hc => (intChars_plain hc).2
  | case3 v w vs ih =>
    rw [splitComma_append fun _ hc => (intChars_plain hc).2, ih (List.cons_ne_nil w vs)]
    rfl

theorem renderListing_noBlank (image : List Int) : ∀ c ∈ renderListing image, isBlank c = false := by
  fun_induction renderListing image with
  | case1 => exact fun _ hc => nomatch hc
  | case2 v => exact fun _ hc => (intChars_plain hc).1
  | case3 v w vs ih =>
    refine List.forall_mem_append.2 ⟨fun _ hc => (intChars_plain hc).1, List.forall_mem_cons.2 ⟨by decide, ih⟩⟩

/-- Settles O41: a listing has no white space to trim, its tokens are the texts of its words, and each reads back. -/
theorem loaderReadsBackListings : Obligations.LoaderReadsBackListings := by
  intro W image hne hwords
  rw [parseListing, trim_of_noBlank (renderListing_noBlank image), splitComma_renderListing hne,
    parseTokens_map_intChars hwords]

end Sys2Proof.Machine
end

section
/-! The run call, instruction by instruction (R68 to R86): what an instruction inside it does to the call, and the three
yields. -/

namespace Sys2Proof.Machine

/-- Settles O6: the fetch below the end of memory decodes the word at `ip` and the three after it. -/
theorem stepRunsTheDecodedInstruction : Obligations.StepRunsTheDecodedInstruction := by
  intro s i hx hip hdec
  rw [step_executing hx, fetchInstr_ok_iff.2 ⟨hip, hdec⟩]

/-- Settles O21: HLT is the yield in `Ended` and no access at all. -/
theorem endProgramEndsTheCall : Obligations.EndProgramEndsTheCall := fun _ => execHlt_next_iff.2 rfl

/-- Settles O15: the empty slot is the stalling case of IN, whose yield follows the parameter-word read. -/
theorem inputWithoutAValueStalls : Obligations.InputWithoutAValueStalls := by
  intro s d hfit hm h0 hslot
  refine ⟨stalledState s, execIn_next_iff.2 ⟨⟨hm, hfit, h0⟩, .inr ⟨hslot, rfl⟩⟩, ⟨fun _ => rfl, rfl⟩, ?_⟩
  rw [hslot]
  rfl

/-- Settles O17: OUT yields the operand's value after its reads and the advance. -/
theorem outputYieldsItsOperand : Obligations.OutputYieldsItsOperand := fun _ _ hfit ha =>
  ⟨_, execOut_next_iff.2 ⟨⟨hfit, ha⟩, rfl⟩, ⟨fun _ => rfl, rfl⟩, rfl⟩

/-- From `s` to `t` the run call went on: no response was given, `st` is kept, and the slot at most emptied. -/
structure CallGoesOn (s t : State) : Prop where
  running   : t.running = s.running
  responses : t.responses = s.responses
  st        : t.st = s.st
  slot      : t.inSlot = s.inSlot ∨ t.inSlot = none

/-- From `s` to `t` the run call ended at a yield point, with one response (R72 to R74). -/
structure CallEnds (s t : State) : Prop where
  running  : t.running = false
  slot     : t.inSlot = none
  response :
    t.responses = s.responses ++ [.ok none] ∧ (t.st = .waitingInstruction ∨ t.st = .ended) ∨
      ∃ v, t.responses = s.responses ++ [.ok (some v)] ∧ t.st = .output

/-- The three yields end the call; every other instruction that completes goes on with it. -/
theorem exec_callGoesOn_or_callEnds {i : Instr} {s t : State} (h : exec i s = .next t) :
    CallGoesOn s t ∨ CallEnds s t := by
  obtain ⟨_, _, _, _, _, _, _, rfl⟩ | ⟨_, _, _, _, _, _, rfl⟩ | ⟨_, _, _, _, rfl⟩ | ⟨_, _, _, _, rfl⟩ |
    ⟨_, _, _, _, _, _, _, rfl⟩ | ⟨_, _, _, _, _, _, rfl⟩ | ⟨_, _, _, _, _, rfl⟩ | ⟨_, rfl⟩ := exec_next_cases h
  -- ADD, MUL, LT, EQ
  · exact .inl ⟨rfl, rfl, rfl, .inl rfl⟩
  -- IN with a value
  · exact .inl ⟨rfl, rfl, rfl, .inr rfl⟩
  -- IN that stalls
  · exact .inr ⟨rfl, rfl, .inl ⟨rfl, .inl rfl⟩⟩
  -- OUT
  · exact .inr ⟨rfl, rfl, .inr ⟨_, rfl, rfl⟩⟩
  -- a taken jump, a jump not taken, ARB
  · exact .inl ⟨rfl, rfl, rfl, .inl rfl⟩
  · exact .inl ⟨rfl, rfl, rfl, .inl rfl⟩
  · exact .inl ⟨rfl, rfl, rfl, .inl rfl⟩
  -- HLT
  · exact .inr ⟨rfl, rfl, .inl ⟨rfl, .inr rfl⟩⟩

theorem step_callGoesOn_or_callEnds {s t : State} (hx : executing s) (h : step s = .next t) :
    CallGoesOn s t ∨ CallEnds s t := by
  obtain ⟨-, i, -, he⟩ | ⟨hr, -⟩ | ⟨hr, -⟩ := step_next_cases h
  · exact exec_callGoesOn_or_callEnds he
  · nomatch hx.1.symm.trans hr
  · nomatch hx.1.symm.trans hr

/-- Settles O44, by whether the instruction ends the call. -/
theorem responseContract : Obligations.ResponseContract := by
  intro s t hx h
  obtain hgo | hend := step_callGoesOn_or_callEnds hx h
  · exact ⟨fun hr => (nomatch hr.symm.trans (hgo.running.trans hx.1)), fun _ => ⟨hgo.responses, hgo.st⟩⟩
  · refine ⟨fun _ => ?_, fun hr => (nomatch hr.symm.trans hend.running)⟩
    obtain ⟨hresp, hst⟩ | ⟨v, hresp, hst⟩ := hend.response
    · exact ⟨none, hresp, fun _ => hst, fun _ hv => (nomatch hv)⟩
    · exact ⟨some v, hresp, fun hv => (nomatch hv), fun _ _ => hst⟩

/-- Settles O45, by whether the instruction ends the call. -/
theorem oneInputForACall : Obligations.OneInputForACall := by
  intro s t hx h
  obtain hgo | hend := step_callGoesOn_or_callEnds hx h
  · refine ⟨fun hs => ?_, fun hr => (nomatch hr.symm.trans (hgo.running.trans hx.1)), fun x hs => ?_⟩
    · exact hgo.slot.elim (fun h => h.trans hs) id
    · exact hgo.slot.imp_left fun h => h.trans hs
  · exact ⟨fun _ => hend.slot, fun _ => hend.slot, fun _ _ => .inr hend.slot⟩

/-! ## A jump to itself -/

/-- Two literals whose words are inside memory extend nothing. -/
theorem lenAfterReads_literals {s : State} {v w : Int} (h : s.ip + 2 < s.mem.len) :
    lenAfterReads s 2 [.lit v, .lit w] = s.mem.len := by
  rw [lenAfterReads_lit, lenAfterReads_lit, lenAfterReads, List.foldl_nil, max_eq_left (by omega)]

/-- A taken jump to the address it stands at, both operands literal, leaves the state as it is. -/
theorem exec_jumpToItself {s : State} {c : Int} {i : Instr} (hlen : s.ip + 2 < s.mem.len) (hfit : paramsFit 2 s)
    (hi : i = .jt (.lit c) (.lit s.ip) ∧ c ≠ 0 ∨ i = .jf (.lit c) (.lit s.ip) ∧ c = 0) : exec i s = .next s := by
  have hself : s = { withLen (lenAfterReads s 2 [.lit c, .lit s.ip]) s with
      ip := (valueOf (.lit s.ip) s).toNat } := by
    rw [lenAfterReads_literals hlen]
    rfl
  have hready : paramsFit 2 s ∧ readable (.lit c) s ∧ readable (.lit s.ip) s :=
    ⟨hfit, readable_lit _ _, readable_lit _ _⟩
  have htarget : 0 ≤ valueOf (.lit s.ip) s := Int.natCast_nonneg s.ip
  obtain ⟨rfl, hc⟩ | ⟨rfl, hc⟩ := hi
  · exact execJt_next_iff.2 ⟨hready, (if_pos hc).mpr ⟨htarget, hself⟩⟩
  · exact execJf_next_iff.2 ⟨hready, (if_pos hc).mpr ⟨htarget, hself⟩⟩

theorem core_run_of_step_self {s : State} (h : step s = .next s) (n : Nat) : Sys2Proof.core.run n s = .next s := by
  induction n with
  | zero => rfl
  | succ n ih => rw [core_run_succ h, ih]

/-- Settles O47: the word decodes to a jump to itself, whose step answers the state it started from. -/
theorem jumpToItselfNeverResponds : Obligations.JumpToItselfNeverResponds := by
  intro s c hx hlen hfit hw hc htarget
  refine core_run_of_step_self ?_
  have runs (i : Instr) (hdec : decode (s.mem.peek s.ip) [c, s.ip, s.mem.peek (s.ip + 3)] = .ok i) :
      step s = exec i s := stepRunsTheDecodedInstruction s i hx (by omega) (by rwa [hc, htarget])
  obtain ⟨hw, hc0⟩ | ⟨hw, hc0⟩ := hw
  · rw [runs (.jt (.lit c) (.lit s.ip)) (by rw [hw]; rfl)]
    exact exec_jumpToItself hlen hfit (.inl ⟨rfl, hc0⟩)
  · rw [runs (.jf (.lit c) (.lit s.ip)) (by rw [hw]; rfl)]
    exact exec_jumpToItself hlen hfit (.inr ⟨rfl, hc0⟩)

end Sys2Proof.Machine
end

section
/-! The host's operations between run calls (R67, R68, R77 to R84): the oldest request is served from the state without
it. -/

namespace Sys2Proof.Machine

theorem step_request {s : State} {r : Request} {rest : List Request} (hrun : s.running = false)
    (hq : s.requests = r :: rest) : step s = serve r { s with requests := rest } := by
  rw [step_idle hrun, idleStep, hq]

theorem ifLive_of_no_fault {s : State} (h : s.fault = none) (o : Host.Outcome State Fault Refusal) : ifLive s o = o := by
  rw [ifLive, h]

theorem serveRun_word {s : State} {input : Option Int} (h : ∀ v, input = some v → s.cfg.InWord v) :
    serveRun input s = .next (startRun input s) := by
  cases input with
  | none => rfl
  | some v => exact if_pos (h v rfl)

/-- Settles O31: a faulted machine refuses what is no load, and a refused request is gone. -/
theorem faultedInstanceRefusesOperations : Obligations.FaultedInstanceRefusesOperations := by
  intro s r rest hf hrun hq hr
  have hload : ¬isLoadRequest r := by
    obtain ⟨_, rfl⟩ | rfl | rfl | ⟨_, _, rfl⟩ := hr <;> rintro (⟨_, h⟩ | ⟨_, h⟩) <;> nomatch h
  have hstep : step s = .refused .faultedInstance :=
    (step_request hrun hq).trans (serve_faulted (s := { s with requests := rest }) hf hload)
  refine ⟨hstep, ?_⟩
  rw [settle_refused hstep, dropServed_idle hrun, hq, List.tail_cons]

/-- Settles O43: a live machine serves the request by `startRun`. -/
theorem runStartsTheTransaction : Obligations.RunStartsTheTransaction := by
  intro s input rest hrun hf hq hinput
  rw [step_request hrun hq, serve, ifLive_of_no_fault (s := { s with requests := rest }) hf]
  exact serveRun_word (s := { s with requests := rest }) hinput

/-- Settles O49: a live machine serves each by its response alone. -/
theorem stateAndPeekOnlyRespond : Obligations.StateAndPeekOnlyRespond := by
  intro s rest hrun hf
  have live := ifLive_of_no_fault (s := { s with requests := rest }) hf
  exact ⟨fun hq => (step_request hrun hq).trans (live _), fun hq => (step_request hrun hq).trans (live _)⟩

/-- Settles O48: below the end of memory the write reaches no further than memory does. -/
theorem pokeSetsOneCell : Obligations.PokeSetsOneCell := by
  intro s a v rest hrun hf hm hq hv
  have hstep : step s = servePoke a v { s with requests := rest } :=
    (step_request hrun hq).trans (ifLive_of_no_fault (s := { s with requests := rest }) hf _)
  rw [hstep]
  refine ⟨fun h0 hlen => ⟨_, servePoke_next_iff.2 ⟨⟨h0, hlen⟩, hv, rfl⟩, peek_write_self hm _ v,
    fun x hx => peek_write_ne s.mem hx v, ?_, rfl⟩, fun h => if_pos h⟩
  exact (write_len s.mem _ v).trans (max_eq_left (by omega))

theorem settle_next {s t : State} (h : step s = .next t) : settle s = t := by
  simp only [settle, h]

/-- Settles O46: the first step starts the run call, the second runs the HLT that is still at `ip`. -/
theorem runAfterEndEndsAgain : Obligations.RunAfterEndEndsAgain := by
  intro s input rest hrun hf hq hinput hip hdec
  have hstart := runStartsTheTransaction s input rest hrun hf hq hinput
  rw [session, settle_next hstart, session, session]
  refine settle_next ?_
  rw [hrun]
  exact (stepRunsTheDecodedInstruction (startRun input { s with requests := rest }) .hlt ⟨rfl, hf⟩ hip hdec).trans
    (endProgramEndsTheCall _)

end Sys2Proof.Machine
end

section
/-! The machine's step is the common pipeline of R70: stage by stage, what the pipeline does over lists of parameters is
what the machine does for an instruction's shape (log 10). -/

namespace Sys2Proof.Machine

/-! ## The stages -/

/-- Two continuations of a stage agree when they agree on what it can answer. -/
theorem bind_congr_ok {ε α β : Type} {x : Except ε α} {f g : α → Except ε β} (h : ∀ a, x = .ok a → f a = g a) :
    (x >>= f) = (x >>= g) := by
  cases x with
  | error e => rfl
  | ok a => exact h a rfl

theorem readParamWords_keeps {n : Nat} {s t : State} (h : readParamWords n s = .ok t) :
    t.ip = s.ip ∧ ∀ x, t.mem.peek x = s.mem.peek x := by
  cases n with
  | zero => cases h; exact ⟨rfl, fun _ => rfl⟩
  | succ n => obtain ⟨-, rfl⟩ := readParamWords_ok_iff.1 h; exact ⟨rfl, fun _ => rfl⟩

/-- The words `MemRead` returns for the parameters (R70). -/
def paramWords (n : Nat) (s : State) : List Int := (List.range n).map fun k => s.mem.peek (s.ip + (k + 1))

/-- The pipeline's parameter-word reads are the machine's, and the words they return are those in memory before them. -/
theorem pipelineParams_eq (n : Nat) (s : State) :
    pipelineParams n s = (readParamWords n s >>= fun t => pure (paramWords n s, t)) := by
  induction n with
  | zero => rfl
  | succ n ih =>
    rw [pipelineParams, readParamWords, ih]
    cases h : readParamWords n s with
    | error f => rfl
    | ok t =>
      obtain ⟨hip, hpeek⟩ := readParamWords_keeps h
      cases hread : memRead (t.ip + (n + 1)) t with
      | error f => simp only [ok_bind, pure, Except.pure, hread, error_bind]
      | ok r =>
        obtain ⟨-, hv, -⟩ := memRead_ok_iff.1 hread
        have hwords : paramWords (n + 1) s = paramWords n s ++ [r.1] := by
          rw [hv, hpeek, hip, paramWords, List.range_succ, List.map_append]; rfl
        simp only [ok_bind, pure, Except.pure, hread, hwords]

/-- The address at which a source is, as the pipeline keeps it. -/
def Source.address : Source → Option Nat
  | .literal _ => none
  | .cell a => some a

theorem pipelineAddr_eq (s : State) (p : Param) : pipelineAddr s p = (locate p s >>= fun l => pure l.address) := by
  obtain ⟨m, w⟩ := p
  cases m with
  | position => simp only [pipelineAddr, locate, reduceCtorEq, if_false]; cases effAddr ⟨.position, w⟩ s <;> rfl
  | immediate => rfl
  | relative => simp only [pipelineAddr, locate, reduceCtorEq, if_false]; cases effAddr ⟨.relative, w⟩ s <;> rfl

theorem pipelineAddr_dst {s : State} {d : Param} (h : d.mode ≠ .immediate) :
    pipelineAddr s d = (effAddr d s >>= fun a => pure (some a)) := by
  rw [pipelineAddr, if_neg h]
  rfl

theorem pipelineOperand_read {d : Option Nat} {k : Nat} {p : Param} {l : Source} {s t : State}
    (h : locate p s = .ok l) (hd : d ≠ some k) : pipelineOperand d k p l.address t = operand l t := by
  obtain ⟨-, rfl⟩ := locate_ok_iff.1 h
  obtain ⟨m, w⟩ := p
  cases m <;> exact if_neg hd

@[simp] theorem pipelineOperand_dst (k : Nat) (p : Param) (a : Option Nat) (s : State) :
    pipelineOperand (some k) k p a s = pure (0, s) := if_pos rfl

@[simp] theorem pipelineAddrs_nil (s : State) : pipelineAddrs s [] = pure [] := rfl

@[simp] theorem pipelineAddrs_cons (s : State) (p : Param) (ps : List Param) :
    pipelineAddrs s (p :: ps) =
      (pipelineAddr s p >>= fun a => pipelineAddrs s ps >>= fun rest => pure (a :: rest)) := rfl

@[simp] theorem pipelineOperands_nil (d : Option Nat) (k : Nat) (s : State) :
    pipelineOperands d k [] s = pure ([], s) := rfl

@[simp] theorem pipelineOperands_cons (d : Option Nat) (k : Nat) (p : Param) (a : Option Nat)
    (rest : List (Param × Option Nat)) (s : State) :
    pipelineOperands d k ((p, a) :: rest) s =
      (pipelineOperand d k p a s >>= fun v => pipelineOperands d (k + 1) rest v.2 >>= fun vs =>
        pure (v.1 :: vs.1, vs.2)) := rfl

/-! ## The accesses of each shape -/

/-- What the pipeline has once every access of an instruction is made: `v_1`, `v_2`, the destination address, and the
state after the reads. -/
abbrev Accessed := Int × Int × Nat × State

/-- The pipeline from the effective addresses to the operand values (R70). -/
def pipelineValues (d : Option Nat) (params : List Param) (s : State) : Except Fault Accessed := do
  let eas ← pipelineAddrs s params
  let (vs, s') ← pipelineOperands d 1 (params.zip eas) s
  return (vs.getD 0 0, vs.getD 1 0, pipelineDst d eas, s')

/-- The parameters of a word with these fields, at `ip`. -/
def pipelineParamsAt (f : Fields) (s : State) : List Param :=
  [f.m1, f.m2, f.m3].zipWith Param.mk (paramWords f.op.arity s)

/-- The pipeline between decode and Execute (R70). -/
def pipelineAccesses (f : Fields) (s : State) : Except Fault Accessed := do
  pipelineDstCheck f s
  let s' ← readParamWords f.op.arity s
  pipelineValues f.op.dstIndex (pipelineParamsAt f s) s'

/-- `Step()` is fetch, decode, the accesses and Execute. -/
theorem pipelineStep_eq (s : State) :
    pipelineStep s = finish (fetch s >>= fun w => pipelineDecode w s >>= fun f => pipelineAccesses f s >>= fun r =>
      pipelineExecute f.op r.1 r.2.1 r.2.2.1 r.2.2.2) := by
  simp only [pipelineStep, pipelineAccesses, pipelineValues, pipelineParamsAt, pipelineParams_eq, bind_assoc, pure_bind]

theorem pipelineValues_twoAndDst (a b : Param) {d : Param} (s : State) (hd : d.mode ≠ .immediate) :
    pipelineValues (some 3) [a, b, d] s =
      (locate a s >>= fun la => locate b s >>= fun lb => effAddr d s >>= fun ad => operand la s >>= fun va =>
        operand lb va.2 >>= fun vb => pure (va.1, vb.1, ad, vb.2)) := by
  simp only [pipelineValues, pipelineAddrs_cons, pipelineAddrs_nil, pipelineAddr_eq s a, pipelineAddr_eq s b,
    pipelineAddr_dst hd, bind_assoc, pure_bind]
  refine bind_congr_ok fun la ha => bind_congr_ok fun lb hb => bind_congr_ok fun ad _ => ?_
  simp (disch := decide) only [List.zip_cons_cons, List.zip_nil_right, pipelineOperands_cons, pipelineOperands_nil,
    pipelineOperand_read ha, pipelineOperand_read hb, pipelineOperand_dst, bind_assoc, pure_bind]
  rfl

theorem pipelineValues_two (a b : Param) (s : State) :
    pipelineValues none [a, b] s =
      (locate a s >>= fun la => locate b s >>= fun lb => operand la s >>= fun va =>
        operand lb va.2 >>= fun vb => pure (va.1, vb.1, 0, vb.2)) := by
  simp only [pipelineValues, pipelineAddrs_cons, pipelineAddrs_nil, pipelineAddr_eq, bind_assoc, pure_bind]
  refine bind_congr_ok fun la ha => bind_congr_ok fun lb hb => ?_
  simp (disch := decide) only [List.zip_cons_cons, List.zip_nil_right, pipelineOperands_cons, pipelineOperands_nil,
    pipelineOperand_read ha, pipelineOperand_read hb, bind_assoc, pure_bind]
  rfl

theorem pipelineValues_one (a : Param) (s : State) :
    pipelineValues none [a] s =
      (locate a s >>= fun la => operand la s >>= fun va => pure (va.1, 0, 0, va.2)) := by
  simp only [pipelineValues, pipelineAddrs_cons, pipelineAddrs_nil, pipelineAddr_eq, bind_assoc, pure_bind]
  refine bind_congr_ok fun la ha => ?_
  simp (disch := decide) only [List.zip_cons_cons, List.zip_nil_right, pipelineOperands_cons, pipelineOperands_nil,
    pipelineOperand_read ha, bind_assoc, pure_bind]
  rfl

theorem pipelineValues_dst {d : Param} (s : State) (hd : d.mode ≠ .immediate) :
    pipelineValues (some 1) [d] s = (effAddr d s >>= fun ad => pure (0, 0, ad, s)) := by
  simp [pipelineValues, pipelineAddr_dst hd, pipelineDst]

/-- The destination check for an opcode with a destination. -/
theorem pipelineDstCheck_three {f : Fields} (s : State) (w : Int) (h : f.op.dstIndex = some 3) :
    pipelineDstCheck f s = checkDst 3 ⟨f.m3, w⟩ s := by
  simp only [pipelineDstCheck, h, checkDst]
  cases f.m3 <;> rfl

theorem pipelineDstCheck_one {f : Fields} (s : State) (w : Int) (h : f.op.dstIndex = some 1) :
    pipelineDstCheck f s = checkDst 1 ⟨f.m1, w⟩ s := by
  simp only [pipelineDstCheck, h, checkDst]
  cases f.m1 <;> rfl

theorem pipelineDstCheck_none {f : Fields} (s : State) (h : f.op.dstIndex = none) :
    pipelineDstCheck f s = pure () := by
  simp only [pipelineDstCheck, h]
  rfl

/-- The accesses of ADD, MUL, LT and EQ. -/
theorem pipelineAccesses_twoAndDst {f : Fields} (s : State) (hn : f.op.arity = 3) (hd : f.op.dstIndex = some 3) :
    pipelineAccesses f s =
      readTwoAndDst ⟨f.m1, s.mem.peek (s.ip + 1)⟩ ⟨f.m2, s.mem.peek (s.ip + 2)⟩ ⟨f.m3, s.mem.peek (s.ip + 3)⟩ s := by
  have hparams : pipelineParamsAt f s =
      [⟨f.m1, s.mem.peek (s.ip + 1)⟩, ⟨f.m2, s.mem.peek (s.ip + 2)⟩, ⟨f.m3, s.mem.peek (s.ip + 3)⟩] := by
    rw [pipelineParamsAt, hn]; rfl
  rw [pipelineAccesses, readTwoAndDst, hn, hd, hparams, pipelineDstCheck_three s _ hd]
  refine bind_congr_ok fun _ hm => bind_congr_ok fun s' _ => ?_
  exact pipelineValues_twoAndDst _ _ s' (checkDst_ok_iff.1 hm)

/-- The accesses of JT and JF. -/
theorem pipelineAccesses_two {f : Fields} (s : State) (hn : f.op.arity = 2) (hd : f.op.dstIndex = none) :
    pipelineAccesses f s =
      (readTwo ⟨f.m1, s.mem.peek (s.ip + 1)⟩ ⟨f.m2, s.mem.peek (s.ip + 2)⟩ s >>= fun r =>
        pure (r.1, r.2.1, 0, r.2.2)) := by
  have hparams : pipelineParamsAt f s = [⟨f.m1, s.mem.peek (s.ip + 1)⟩, ⟨f.m2, s.mem.peek (s.ip + 2)⟩] := by
    rw [pipelineParamsAt, hn]; rfl
  simp only [pipelineAccesses, readTwo, hn, hd, hparams, pipelineDstCheck_none s hd, pipelineValues_two, bind_assoc,
    pure_bind]

/-- The accesses of OUT and ARB. -/
theorem pipelineAccesses_one {f : Fields} (s : State) (hn : f.op.arity = 1) (hd : f.op.dstIndex = none) :
    pipelineAccesses f s = (readOne ⟨f.m1, s.mem.peek (s.ip + 1)⟩ s >>= fun r => pure (r.1, 0, 0, r.2)) := by
  have hparams : pipelineParamsAt f s = [⟨f.m1, s.mem.peek (s.ip + 1)⟩] := by
    rw [pipelineParamsAt, hn]; rfl
  simp only [pipelineAccesses, readOne, hn, hd, hparams, pipelineDstCheck_none s hd, pipelineValues_one, bind_assoc,
    pure_bind]

/-- The accesses of IN. -/
theorem pipelineAccesses_dst {f : Fields} (s : State) (hn : f.op.arity = 1) (hd : f.op.dstIndex = some 1) :
    pipelineAccesses f s = (dstOnly ⟨f.m1, s.mem.peek (s.ip + 1)⟩ s >>= fun r => pure (0, 0, r.1, r.2)) := by
  have hparams : pipelineParamsAt f s = [⟨f.m1, s.mem.peek (s.ip + 1)⟩] := by
    rw [pipelineParamsAt, hn]; rfl
  rw [pipelineAccesses, hn, hparams, hd, pipelineDstCheck_one s _ hd]
  simp only [dstOnly, bind_assoc, pure_bind]
  refine bind_congr_ok fun _ hm => bind_congr_ok fun s' _ => ?_
  exact pipelineValues_dst s' (checkDst_ok_iff.1 hm)

/-- HLT makes no access. -/
theorem pipelineAccesses_nothing {f : Fields} (s : State) (hn : f.op.arity = 0) (hd : f.op.dstIndex = none) :
    pipelineAccesses f s = pure (0, 0, 0, s) := by
  rw [pipelineAccesses, hn, hd, pipelineDstCheck_none s hd, pipelineParamsAt, hn]
  rfl

/-! ## Execute -/

theorem pipelineExecute_jt (v1 v2 : Int) (ea : Nat) (s : State) :
    pipelineExecute .jt v1 v2 ea s = if nonZero v1 then jumpTo v2 s else pure (advance 3 s) := by
  simp only [pipelineExecute, nonZero_iff]
  rfl

theorem pipelineExecute_jf (v1 v2 : Int) (ea : Nat) (s : State) :
    pipelineExecute .jf v1 v2 ea s = if !nonZero v1 then jumpTo v2 s else pure (advance 3 s) := by
  simp only [pipelineExecute, Bool.not_eq_true', ← Bool.not_eq_true, nonZero_iff, not_not]
  rfl

theorem pipelineExecute_inp (v1 v2 : Int) (ea : Nat) (s : State) :
    pipelineExecute .inp v1 v2 ea s = takeInput ea s := by
  rw [pipelineExecute, takeInput]
  cases s.inSlot with
  | none => rfl
  | some x => cases h : memWrite ea x s <;> simp only [h] <;> rfl

/-- What an instruction does is its opcode's Execute arm after its accesses. -/
theorem exec_assemble (f : Fields) (s : State) :
    exec (assemble f (s.mem.peek (s.ip + 1)) (s.mem.peek (s.ip + 2)) (s.mem.peek (s.ip + 3))) s =
      finish (pipelineAccesses f s >>= fun r => pipelineExecute f.op r.1 r.2.1 r.2.2.1 r.2.2.2) := by
  obtain ⟨op, m1, m2, m3⟩ := f
  cases op with
  | add => rw [pipelineAccesses_twoAndDst s rfl rfl]; rfl
  | mul => rw [pipelineAccesses_twoAndDst s rfl rfl]; rfl
  | lt => rw [pipelineAccesses_twoAndDst s rfl rfl]; simp only [pipelineExecute, ← boolWord_lessThan]; rfl
  | eq => rw [pipelineAccesses_twoAndDst s rfl rfl]; simp only [pipelineExecute, ← boolWord_equals]; rfl
  | jt => rw [pipelineAccesses_two s rfl rfl, bind_assoc]; simp only [pipelineExecute_jt]; rfl
  | jf => rw [pipelineAccesses_two s rfl rfl, bind_assoc]; simp only [pipelineExecute_jf]; rfl
  | inp => rw [pipelineAccesses_dst s rfl rfl, bind_assoc]; simp only [pipelineExecute_inp]; rfl
  | out => rw [pipelineAccesses_one s rfl rfl, bind_assoc]; rfl
  | arb => rw [pipelineAccesses_one s rfl rfl, bind_assoc]; rfl
  | hlt => rw [pipelineAccesses_nothing s rfl rfl]; rfl

theorem pipelineDecode_of_ok {w : Int} {f : Fields} (s : State) (h : decodeWord w = .ok f) :
    pipelineDecode w s = .ok f := by rw [pipelineDecode, h]

theorem pipelineDecode_of_error {w : Int} {e : DecodeFault} (s : State) (h : decodeWord w = .error e) :
    pipelineDecode w s = .error (DecodeFault.toFault w s.ip e) := by
  rw [pipelineDecode, h]
  cases e <;> rfl

/-- Settles O9: the fetch fails, the decode fails, or the decoded word's accesses and Execute follow (`exec_assemble`). -/
theorem stepIsTheCommonPipeline : Obligations.StepIsTheCommonPipeline := by
  intro s hx
  rw [pipelineStep_eq]
  rcases le_or_gt s.mem.len s.ip with hip | hip
  · rw [(fetchPastTheEndFaults s).1 hip |>.2 hx, fetch_past_end hip]
    rfl
  · rw [fetch_ok_iff.2 ⟨hip, rfl⟩, ok_bind]
    cases hdec : decodeWord (s.mem.peek s.ip) with
    | error e => rw [step_of_decodeWord_error hx hip hdec, pipelineDecode_of_error s hdec]; rfl
    | ok f =>
      rw [stepRunsTheDecodedInstruction s _ hx hip (decode_of_decodeWord hdec _), pipelineDecode_of_ok s hdec, ok_bind]
      exact exec_assemble f s

end Sys2Proof.Machine
end

section
/-! Addition and Multiplication (R87, R88): with the operands ready, a storing instruction's outcome is decided by its
result and then by its destination (D2, D3). -/

namespace Sys2Proof.Machine

theorem storeReady_of_operandsReady {a b d : Param} {s : State} (hr : operandsReady a b d s)
    (hlt : addrOf d s < s.cfg.maxLen) : storeReady a b d s := by
  obtain ⟨hfit, ha, hb, hd, h0⟩ := hr
  exact ⟨⟨hd, h0, (addrOf_lt_iff h0).1 hlt⟩, hfit, ha, hb⟩

/-- A fault of the result comes before any fault of the store. -/
theorem storeResult_of_result_error {result : Int → Int → State → Except Fault Int} {a b d : Param} {s : State}
    {f : Fault} (hr : operandsReady a b d s)
    (h : result (valueOf a s) (valueOf b s) (withLen (lenAfterReads s 3 [a, b]) s) = .error f) :
    storeResult result a b d s = .error f := by
  rw [storeResult_eq hr, h, error_bind]

theorem storeResult_past_capacity {result : Int → Int → State → Except Fault Int} {a b d : Param} {s : State} {v : Int}
    (hr : operandsReady a b d s)
    (h : result (valueOf a s) (valueOf b s) (withLen (lenAfterReads s 3 [a, b]) s) = .ok v)
    (hcap : s.cfg.maxLen ≤ addrOf d s) :
    storeResult result a b d s = .error (.capacityExceeded (addrOf d s) s.ip) := by
  rw [storeResult_eq hr, h, ok_bind, memWrite_withLen_capacity hcap, error_bind]

/-- Settles O10: the three clauses are the store, the failed `chk` of the sum, and the failed write of a checked sum. -/
theorem addStoresTheExactSum : Obligations.AddStoresTheExactSum := by
  intro s a b d hm hr
  refine ⟨fun hw hlt => storesAndGoesOn_of_next hm ?_, fun hw => ?_, fun hw hcap => ?_⟩
  · exact execAdd_next_iff.2 ⟨storeReady_of_operandsReady hr hlt, hw, rfl⟩
  · exact finish_fault_iff.2 (storeResult_of_result_error hr (chk_overflow hw))
  · exact finish_fault_iff.2 (storeResult_past_capacity hr (chk_ok_iff.2 ⟨hw, rfl⟩) hcap)

/-- Settles O11: the three clauses are the store, the failed `chk` of the product, and the failed write of a checked
product. -/
theorem mulStoresTheExactProduct : Obligations.MulStoresTheExactProduct := by
  intro s a b d hm hr
  refine ⟨fun hw hlt => storesAndGoesOn_of_next hm ?_, fun hw => ?_, fun hw hcap => ?_⟩
  · exact execMul_next_iff.2 ⟨storeReady_of_operandsReady hr hlt, hw, rfl⟩
  · exact finish_fault_iff.2 (storeResult_of_result_error hr (chk_overflow hw))
  · exact finish_fault_iff.2 (storeResult_past_capacity hr (chk_ok_iff.2 ⟨hw, rfl⟩) hcap)

end Sys2Proof.Machine
end

section
/-! Input (R89): with a good destination a full slot is stored or meets the end of capacity (D3); with a bad one the slot
plays no part (D10). -/

namespace Sys2Proof.Machine

theorem takeInput_past_capacity {ad : Nat} {x : Int} {s : State} (hx : s.inSlot = some x) (h : s.cfg.maxLen ≤ ad) :
    takeInput ad s = .error (.capacityExceeded ad s.ip) := by
  simp only [takeInput, hx, memWrite_capacity h]

/-- Settles O14: below MAX_LEN it is the consuming case of IN; at or past it, the write after the parameter-word read
fails. -/
theorem inputStoresAndEmptiesTheSlot : Obligations.InputStoresAndEmptiesTheSlot := by
  intro s d x hm hfit hd h0 hx
  refine ⟨fun hlt => ⟨inputState d x s, ?_, inputState_storedAt hm d x, rfl⟩, fun hcap => ?_⟩
  · exact execIn_next_iff.2 ⟨⟨hd, hfit, h0⟩, .inl ⟨x, hx, ⟨h0, (addrOf_lt_iff h0).1 hlt⟩, rfl⟩⟩
  · have hreads := dstOnly_ok_iff.2 ⟨⟨hd, hfit, h0⟩, rfl, rfl⟩
    have htake := takeInput_past_capacity (s := withLen (lenAfterReads s 1 []) s) hx hcap
    exact finish_fault_iff.2 (bind_error_iff.2 (.inr ⟨_, hreads, htake⟩))

/-- Settles O16: the destination check comes before every access, and a negative address (O28, for the one parameter) is
reported before the slot is looked at. -/
theorem inputDestinationIsCheckedFirst : Obligations.InputDestinationIsCheckedFirst := by
  intro s d
  refine ⟨fun hd => ?_, fun hd hfit hneg => ?_⟩
  · exact exec_of_accessesFault (i := .inp d) (dstOnly_immediate hd)
  · exact lowestNegativeAddressIsReported s (.inp d) 0 d hfit (fun _ h => Option.some.inj h ▸ hd) rfl hd hneg
      (fun _ _ hj => absurd hj (Nat.not_lt_zero _))

end Sys2Proof.Machine
end

section
/-! The conditional jumps (R91, R92): with both operands read, what happens depends on the test and on the sign of the
target alone (D8). -/

namespace Sys2Proof.Machine

theorem not_nonZero_iff {v : Int} : (!nonZero v) = true ↔ v = 0 := by simp [nonZero]

section Outcomes
variable {taken : Int → Bool} {a b : Param} {s : State}

/-- R91, R92: the test holds and the target is an address. -/
theorem jumpWhen_taken (hr : paramsFit 2 s ∧ readable a s ∧ readable b s) (ht : taken (valueOf a s) = true)
    (h0 : 0 ≤ valueOf b s) :
    ∃ t, finish (jumpWhen taken a b s) = .next t ∧ OnlyRead 2 [a, b] s t ∧ (t.ip : Int) = valueOf b s ∧
      t = { s with mem := t.mem, ip := t.ip } :=
  ⟨_, finish_next_iff.2 (jumpWhen_ok_iff.2 ⟨hr, (if_pos ht).mpr ⟨h0, rfl⟩⟩), ⟨fun _ => rfl, rfl⟩,
    Int.toNat_of_nonneg h0, rfl⟩

/-- D8: the test holds and the target is negative. The fault is the jump's, after every read has been answered. -/
theorem jumpWhen_negative_target (hr : paramsFit 2 s ∧ readable a s ∧ readable b s)
    (ht : taken (valueOf a s) = true) (hneg : valueOf b s < 0) :
    finish (jumpWhen taken a b s) = .fault (.negativeAddress (valueOf b s) s.ip) := by
  rw [finish_fault_iff, jumpWhen, readTwo_ok_iff.2 ⟨hr, rfl, rfl, rfl⟩, ok_bind]
  exact (if_pos ht).trans (if_pos hneg)

/-- R91, R92: the test fails; the target plays no part, whatever its sign. -/
theorem jumpWhen_not_taken (hr : paramsFit 2 s ∧ readable a s ∧ readable b s) (ht : ¬taken (valueOf a s) = true) :
    ∃ t, finish (jumpWhen taken a b s) = .next t ∧ OnlyRead 2 [a, b] s t ∧
      t = { s with mem := t.mem, ip := s.ip + 3 } :=
  ⟨_, finish_next_iff.2 (jumpWhen_ok_iff.2 ⟨hr, (if_neg ht).mpr rfl⟩), ⟨fun _ => rfl, rfl⟩, rfl⟩

end Outcomes

/-- Settles O18: JT is the conditional jump whose test is `nonZero`. -/
theorem jumpIfTrueJumpsOnNonZero : Obligations.JumpIfTrueJumpsOnNonZero := by
  intro s a b hfit ha hb
  have hr : paramsFit 2 s ∧ readable a s ∧ readable b s := ⟨hfit, ha, hb⟩
  refine ⟨fun hc h0 => ?_, fun hc hneg => ?_, fun hc => ?_⟩
  · exact jumpWhen_taken hr (nonZero_iff.2 hc) h0
  · exact jumpWhen_negative_target hr (nonZero_iff.2 hc) hneg
  · exact jumpWhen_not_taken hr fun h => nonZero_iff.1 h hc

/-- Settles O19: JF is the conditional jump whose test is `nonZero` negated. -/
theorem jumpIfFalseJumpsOnZero : Obligations.JumpIfFalseJumpsOnZero := by
  intro s a b hfit ha hb
  have hr : paramsFit 2 s ∧ readable a s ∧ readable b s := ⟨hfit, ha, hb⟩
  refine ⟨fun hc h0 => ?_, fun hc hneg => ?_, fun hc => ?_⟩
  · exact jumpWhen_taken hr (not_nonZero_iff.2 hc) h0
  · exact jumpWhen_negative_target hr (not_nonZero_iff.2 hc) hneg
  · exact jumpWhen_not_taken hr fun h => hc (not_nonZero_iff.1 h)

end Sys2Proof.Machine
end

section
/-! The comparisons (R93, R94): the result is always a word, so with the operands ready the outcome is decided by the
destination alone (D3). -/

namespace Sys2Proof.Machine

section Comparison
variable {a b d : Param} {s : State}

/-- R93: the word LT stores. -/
theorem exec_lt_storesAndGoesOn (hm : s.mem.wf = true) (hr : operandsReady a b d s) (hlt : addrOf d s < s.cfg.maxLen) :
    storesAndGoesOn (.lt a b d) a b d (if valueOf a s < valueOf b s then 1 else 0) s :=
  storesAndGoesOn_of_next hm <|
    execLt_next_iff.2 ⟨storeReady_of_operandsReady hr hlt, by rw [boolWord_lessThan]⟩

/-- R94: the word EQ stores. -/
theorem exec_eq_storesAndGoesOn (hm : s.mem.wf = true) (hr : operandsReady a b d s) (hlt : addrOf d s < s.cfg.maxLen) :
    storesAndGoesOn (.eq a b d) a b d (if valueOf a s = valueOf b s then 1 else 0) s :=
  storesAndGoesOn_of_next hm <|
    execEq_next_iff.2 ⟨storeReady_of_operandsReady hr hlt, by rw [boolWord_equals]⟩

end Comparison

/-- Settles O12: the stored word is split along the signed comparison, and at or past MAX_LEN its write fails. -/
theorem lessThanStoresOneOrZero : Obligations.LessThanStoresOneOrZero := by
  intro s a b d hm hr
  refine ⟨fun hlt => ?_, fun hcap => finish_fault_iff.2 (storeResult_past_capacity hr rfl hcap)⟩
  have hstore := exec_lt_storesAndGoesOn hm hr hlt
  exact ⟨fun h => by rwa [if_pos h] at hstore, fun h => by rwa [if_neg (Int.not_lt.2 h)] at hstore⟩

/-- Settles O13: the stored word is split along the equality, and at or past MAX_LEN its write fails. -/
theorem equalsStoresOneOrZero : Obligations.EqualsStoresOneOrZero := by
  intro s a b d hm hr
  refine ⟨fun hlt => ?_, fun hcap => finish_fault_iff.2 (storeResult_past_capacity hr rfl hcap)⟩
  have hstore := exec_eq_storesAndGoesOn hm hr hlt
  exact ⟨fun h => by rwa [if_pos h] at hstore, fun h => by rwa [if_neg h] at hstore⟩

end Sys2Proof.Machine
end

section
/-! AdjustRelativeBase (R95): with the operand read at the old relative base, what happens depends on the sum alone
(D2). -/

namespace Sys2Proof.Machine

/-- The read leaves the relative base and `ip` as they were, so the fault is that of `chk` on the exact sum. -/
theorem execArb_overflow {a : Param} {s : State} (hfit : paramsFit 1 s) (ha : readable a s)
    (hw : ¬s.cfg.InWord (s.rb + valueOf a s)) :
    execArb a s = .fault (.arithmeticOverflow (s.rb + valueOf a s) s.ip) := by
  have hread := readOne_ok_iff.2 ⟨⟨hfit, ha⟩, rfl, rfl⟩
  have hchk := (chk_withLen _ (lenAfterReads s 1 [a]) s).trans (chk_overflow hw)
  exact finish_fault_iff.2 (bind_error_iff.2 (.inr ⟨_, hread, bind_error_iff.2 (.inl hchk)⟩))

/-- Settles O20: a word sum is the completing case of ARB, whose reads change memory's length alone; any other sum
overflows. -/
theorem adjustRelativeBaseAddsToTheBase : Obligations.AdjustRelativeBaseAddsToTheBase := by
  intro s a hfit ha
  refine ⟨fun hw => ?_, fun hw => execArb_overflow hfit ha hw⟩
  exact ⟨_, execArb_next_iff.2 ⟨⟨hfit, ha⟩, hw, rfl⟩, ⟨fun _ => rfl, rfl⟩, rfl⟩

end Sys2Proof.Machine
end

section
/-! The kinds of fault an instruction can end in (R99): those of its pipeline and, where it checks a result, the overflow
(D2), or where it jumps, the negative target (D8). -/

namespace Sys2Proof.Machine

/-- What is computed and stored after the pipeline adds the faults of the result alone: the store, like the pipeline, can be
past MAX_LEN. -/
theorem storeResult_error {result : Int → Int → State → Except Fault Int} {a b d : Param} {s : State} {f : Fault}
    (h : storeResult result a b d s = .error f) :
    f.kind ∈ [FaultKind.illegalImmediateWrite, .capacityExceeded, .negativeAddress] ∨
      ∃ va vb t, result va vb t = .error f := by
  simp only [storeResult, bind_error_iff, Prod.exists, pure, Except.pure, reduceCtorEq, and_false, exists_false,
    or_false] at h
  obtain hreads | ⟨va, vb, ad, t, -, hresult | ⟨v, -, hstore⟩⟩ := h
  · exact .inl (by simpa using readTwoAndDst_error hreads)
  · exact .inr ⟨va, vb, t, hresult⟩
  · exact .inl (by simp [memWrite_error hstore, Fault.kind])

/-- A checked result adds the overflow. -/
theorem storeResult_chk_error {op : Int → Int → Int} {a b d : Param} {s : State} {f : Fault}
    (h : storeResult (fun va vb t => chk (op va vb) t) a b d s = .error f) :
    f.kind ∈ [FaultKind.illegalImmediateWrite, .capacityExceeded, .negativeAddress, .arithmeticOverflow] := by
  obtain hkind | ⟨va, vb, t, hchk⟩ := storeResult_error h
  · exact List.mem_append_left [.arithmeticOverflow] hkind
  · simp [chk_error hchk, Fault.kind]

/-- A result that is always a word adds nothing. -/
theorem storeResult_word_error {op : Int → Int → Int} {a b d : Param} {s : State} {f : Fault}
    (h : storeResult (fun va vb _ => .ok (op va vb)) a b d s = .error f) :
    f.kind ∈ [FaultKind.illegalImmediateWrite, .capacityExceeded, .negativeAddress] :=
  (storeResult_error h).resolve_right fun ⟨_, _, _, hok⟩ => nomatch hok

theorem jumpWhen_error {taken : Int → Bool} {a b : Param} {s : State} {f : Fault}
    (h : jumpWhen taken a b s = .error f) : f.kind ∈ [FaultKind.capacityExceeded, .negativeAddress] := by
  simp only [jumpWhen, bind_error_iff, Prod.exists] at h
  obtain hreads | ⟨va, vb, t, -, hjump⟩ := h
  · simpa using readTwo_error hreads
  · split at hjump
    · simp [jumpTo_error hjump, Fault.kind]
    · nomatch hjump

theorem takeInput_error {ad : Nat} {s : State} {f : Fault} (h : takeInput ad s = .error f) :
    f = .capacityExceeded ad s.ip := by
  unfold takeInput at h
  split at h
  · split at h
    · rename_i hwrite
      cases h
      exact memWrite_error hwrite
    · nomatch h
  · nomatch h

theorem execIn_fault {d : Param} {s : State} {f : Fault} (h : execIn d s = .fault f) :
    f.kind ∈ [FaultKind.illegalImmediateWrite, .capacityExceeded, .negativeAddress] := by
  obtain hdst | ⟨⟨ad, t⟩, -, htake⟩ := bind_error_iff.1 (finish_fault_iff.1 h)
  · simpa using dstOnly_error hdst
  · simp [takeInput_error htake, Fault.kind]

theorem execOut_fault {a : Param} {s : State} {f : Fault} (h : execOut a s = .fault f) :
    f.kind ∈ [FaultKind.capacityExceeded, .negativeAddress] := by
  obtain hread | ⟨_, -, hok⟩ := bind_error_iff.1 (finish_fault_iff.1 h)
  · simpa using readOne_error hread
  · nomatch hok

theorem execArb_fault {a : Param} {s : State} {f : Fault} (h : execArb a s = .fault f) :
    f.kind ∈ [FaultKind.capacityExceeded, .negativeAddress, .arithmeticOverflow] := by
  obtain hread | ⟨⟨va, t⟩, -, hsum⟩ := bind_error_iff.1 (finish_fault_iff.1 h)
  · have hkind : f.kind ∈ [FaultKind.capacityExceeded, .negativeAddress] := by simpa using readOne_error hread
    exact List.mem_append_left [.arithmeticOverflow] hkind
  · obtain hchk | ⟨_, -, hok⟩ := bind_error_iff.1 hsum
    · simp [chk_error hchk, Fault.kind]
    · nomatch hok

/-- Settles O29: no instruction is refused, and each one's faults are those of its shape. -/
theorem faultKindsOfEachInstruction : Obligations.FaultKindsOfEachInstruction := by
  refine fun s i => ⟨exec_ne_refused i s, fun f h => ?_⟩
  cases i with
  | add a b d => exact storeResult_chk_error (finish_fault_iff.1 h)
  | mul a b d => exact storeResult_chk_error (finish_fault_iff.1 h)
  | lt a b d => exact storeResult_word_error (finish_fault_iff.1 h)
  | eq a b d => exact storeResult_word_error (finish_fault_iff.1 h)
  | inp d => exact execIn_fault h
  | out a => exact execOut_fault h
  | jt a b => exact jumpWhen_error (finish_fault_iff.1 h)
  | jf a b => exact jumpWhen_error (finish_fault_iff.1 h)
  | arb a => exact execArb_fault h
  | hlt => nomatch h

end Sys2Proof.Machine
end

section
/-! What an instruction cannot read (R106, R24, R26): it runs alike on all states that differ in `st`, `fault` and the
record of responses alone, stage by stage. -/

namespace Sys2Proof.Machine

/-- The state as a program sees it: `st`, `fault` and the record of responses are blank. -/
def programView (s : State) : State := { s with st := .initial, fault := none, responses := [] }

@[simp] theorem programView_ip (s : State) : (programView s).ip = s.ip := rfl
@[simp] theorem programView_inSlot (s : State) : (programView s).inSlot = s.inSlot := rfl

/-! ## Images: what a run from the view answers is the view of what the run from the state answers -/

/-- A first stage whose answer is an image, and a rest that carries images on, make up an image. -/
theorem bind_image {ε α β γ δ : Type} {x : Except ε α} {y : Except ε γ} {φ : α → γ} {ψ : β → δ}
    {g : α → Except ε β} {k : γ → Except ε δ} (hx : y = φ <$> x) (h : ∀ a, k (φ a) = ψ <$> g a) :
    (y >>= k) = ψ <$> (x >>= g) := by
  rw [hx, bind_map_left, map_bind]
  exact bind_congr h

/-- The same after a first stage that answers one thing on both sides. -/
theorem bind_image_same {ε α β δ : Type} {x : Except ε α} {ψ : β → δ} {g : α → Except ε β} {k : α → Except ε δ}
    (h : ∀ a, k a = ψ <$> g a) : (x >>= k) = ψ <$> (x >>= g) :=
  bind_image (id_map x).symm h

/-! ## The stages -/

theorem memRead_programView (a : Nat) (s : State) :
    memRead a (programView s) = Prod.map id programView <$> memRead a s := by
  rw [memRead, memRead, apply_ite (Prod.map id programView <$> ·)]
  rfl

theorem memWrite_programView (a : Nat) (v : Int) (s : State) :
    memWrite a v (programView s) = programView <$> memWrite a v s := by
  rw [memWrite, memWrite, apply_ite (programView <$> ·)]
  rfl

theorem jumpTo_programView (v : Int) (s : State) : jumpTo v (programView s) = programView <$> jumpTo v s := by
  rw [jumpTo, jumpTo, apply_ite (programView <$> ·)]
  rfl

theorem operand_programView (l : Source) (s : State) :
    operand l (programView s) = Prod.map id programView <$> operand l s := by
  cases l with
  | literal v => rfl
  | cell a => exact memRead_programView a s

theorem readParamWords_succ (n : Nat) (s : State) :
    readParamWords (n + 1) s = (readParamWords n s >>= fun t => Prod.snd <$> memRead (t.ip + (n + 1)) t) := by
  rw [readParamWords]
  cases readParamWords n s with
  | error f => rfl
  | ok t =>
    simp only [ok_bind]
    cases memRead (t.ip + (n + 1)) t <;> rfl

theorem readParamWords_programView (n : Nat) (s : State) :
    readParamWords n (programView s) = programView <$> readParamWords n s := by
  induction n with
  | zero => rfl
  | succ n ih =>
    rw [readParamWords_succ, readParamWords_succ]
    refine bind_image ih fun t => ?_
    rw [programView_ip, memRead_programView]
    simp only [Functor.map_map, Prod.map_snd]

/-! ## The pipeline of each shape

The checks between the reads (`checkDst`, `locate`, `effAddr`) do not read what is blank. -/

theorem readTwoAndDst_programView (a b d : Param) (s : State) :
    readTwoAndDst a b d (programView s) =
      (fun (va, vb, ad, t) => (va, vb, ad, programView t)) <$> readTwoAndDst a b d s :=
  bind_image_same fun _ => bind_image (readParamWords_programView 3 s) fun t =>
    bind_image_same fun la => bind_image_same fun lb => bind_image_same fun _ =>
    bind_image (operand_programView la t) fun (_, u) => bind_image (operand_programView lb u) fun _ => rfl

theorem readTwo_programView (a b : Param) (s : State) :
    readTwo a b (programView s) = (fun (va, vb, t) => (va, vb, programView t)) <$> readTwo a b s :=
  bind_image (readParamWords_programView 2 s) fun t => bind_image_same fun la => bind_image_same fun lb =>
    bind_image (operand_programView la t) fun (_, u) => bind_image (operand_programView lb u) fun _ => rfl

theorem readOne_programView (a : Param) (s : State) :
    readOne a (programView s) = Prod.map id programView <$> readOne a s :=
  bind_image (readParamWords_programView 1 s) fun t => bind_image_same fun la => operand_programView la t

theorem dstOnly_programView (d : Param) (s : State) :
    dstOnly d (programView s) = Prod.map id programView <$> dstOnly d s :=
  bind_image_same fun _ => bind_image (readParamWords_programView 1 s) fun _ => bind_image_same fun _ => rfl

/-! ## The shared bodies -/

theorem storeResult_programView {result : Int → Int → State → Except Fault Int}
    (hresult : ∀ va vb t, result va vb (programView t) = result va vb t) (a b d : Param) (s : State) :
    storeResult result a b d (programView s) = programView <$> storeResult result a b d s :=
  bind_image (readTwoAndDst_programView a b d s) fun (va, vb, ad, t) =>
    bind_image ((hresult va vb t).trans (id_map _).symm) fun v =>
    bind_image (memWrite_programView ad v t) fun _ => rfl

theorem jumpWhen_programView (taken : Int → Bool) (a b : Param) (s : State) :
    jumpWhen taken a b (programView s) = programView <$> jumpWhen taken a b s := by
  refine bind_image (readTwo_programView a b s) fun (va, vb, t) => ?_
  show (if taken va then jumpTo vb (programView t) else _) = programView <$> (if taken va then jumpTo vb t else _)
  rw [apply_ite (programView <$> ·), jumpTo_programView]
  rfl

/-- Input goes by the slot; where it stalls, `st` and the response are set to the same on both sides. -/
theorem takeInput_programView (ad : Nat) (s : State) :
    programView <$> takeInput ad (programView s) = programView <$> takeInput ad s := by
  simp only [takeInput, programView_inSlot]
  cases s.inSlot with
  | none => rfl
  | some x =>
    simp only [memWrite_programView]
    cases memWrite ad x s <;> rfl

/-! ## The instructions -/

/-- The outcome of an instruction as a program sees it. -/
def outcomeView : Host.Outcome State Fault Refusal → Host.Outcome State Fault Refusal
  | .next t => .next (programView t)
  | .fault f => .fault f
  | .refused x => .refused x

theorem outcomeView_eq_next_iff {o : Host.Outcome State Fault Refusal} {u : State} :
    outcomeView o = .next u ↔ ∃ t, o = .next t ∧ programView t = u := by
  cases o <;> simp [outcomeView]

theorem outcomeView_eq_fault_iff {o : Host.Outcome State Fault Refusal} {f : Fault} :
    outcomeView o = .fault f ↔ o = .fault f := by
  cases o <;> simp [outcomeView]

theorem outcomeView_finish (x : Except Fault State) : outcomeView (finish x) = finish (programView <$> x) := by
  cases x <;> rfl

theorem outcomeView_finish_congr {x y : Except Fault State} (h : programView <$> y = programView <$> x) :
    outcomeView (finish y) = outcomeView (finish x) := by
  rw [outcomeView_finish, outcomeView_finish, h]

theorem outcomeView_finish_image {x y : Except Fault State} (h : y = programView <$> x) :
    outcomeView (finish y) = outcomeView (finish x) :=
  outcomeView_finish_congr (by rw [h, Functor.map_map]; rfl)

theorem execIn_programView (d : Param) (s : State) :
    outcomeView (execIn d (programView s)) = outcomeView (execIn d s) := by
  refine outcomeView_finish_congr ?_
  rw [map_bind]
  exact bind_image (dstOnly_programView d s) fun (ad, t) => takeInput_programView ad t

theorem execOut_programView (a : Param) (s : State) :
    outcomeView (execOut a (programView s)) = outcomeView (execOut a s) := by
  refine outcomeView_finish_congr ?_
  rw [map_bind]
  exact bind_image (readOne_programView a s) fun _ => rfl

theorem execArb_programView (a : Param) (s : State) :
    outcomeView (execArb a (programView s)) = outcomeView (execArb a s) :=
  outcomeView_finish_image <| bind_image (readOne_programView a s) fun _ => bind_image_same fun _ => rfl

/-- An instruction does the same for a program whatever `st`, `fault` and the record of responses hold. -/
theorem exec_programView (i : Instr) (s : State) : outcomeView (exec i (programView s)) = outcomeView (exec i s) := by
  cases i with
  | add a b d => exact outcomeView_finish_image (storeResult_programView (fun _ _ _ => rfl) a b d s)
  | mul a b d => exact outcomeView_finish_image (storeResult_programView (fun _ _ _ => rfl) a b d s)
  | lt a b d => exact outcomeView_finish_image (storeResult_programView (fun _ _ _ => rfl) a b d s)
  | eq a b d => exact outcomeView_finish_image (storeResult_programView (fun _ _ _ => rfl) a b d s)
  | jt a b => exact outcomeView_finish_image (jumpWhen_programView _ a b s)
  | jf a b => exact outcomeView_finish_image (jumpWhen_programView _ a b s)
  | inp d => exact execIn_programView d s
  | out a => exact execOut_programView a s
  | arb a => exact execArb_programView a s
  | hlt => rfl

/-- Settles O54: the two states have one program view, so the instruction's outcomes have one as well. -/
theorem programsCannotReadStatusOrFault : Obligations.ProgramsCannotReadStatusOrFault := by
  intro s i st fault responses s'
  have hview : outcomeView (exec i s') = outcomeView (exec i s) :=
    (exec_programView i s').symm.trans (exec_programView i s)
  refine ⟨fun f => ?_, fun t ht => ?_⟩
  · rw [← outcomeView_eq_fault_iff, ← hview, outcomeView_eq_fault_iff]
  · obtain ⟨t', ht', hsame⟩ := outcomeView_eq_next_iff.1 (hview.trans (congrArg outcomeView ht))
    obtain ⟨-, hmem, hip, hrb, -, hslot, -, hrunning, -, -⟩ := State.mk.inj hsame
    exact ⟨t', ht', hmem, hip, hrb, hslot, hrunning⟩

end Sys2Proof.Machine
end

section
/-! Between run calls with nothing pending (R111), and the numeric codes (R97, R21). -/

namespace Sys2Proof.Machine

theorem step_nothing_pending {s : State} (hrun : s.running = false) (hq : s.requests = []) : step s = .next s := by
  rw [step_idle hrun, idleStep, hq]

/-- Settles O50, by induction on the number of steps, each of which idles. -/
theorem idleBlockKeepsItsState : Obligations.IdleBlockKeepsItsState := by
  intro s hrun hq n
  induction n with
  | zero => rfl
  | succ n ih => rw [session, settle_next (step_nothing_pending hrun hq), ih]

/-- Settles O60: the codes are listed in the order of the tables (D17, D18). -/
theorem codesAreThoseOfTheTables : Obligations.CodesAreThoseOfTheTables := ⟨rfl, rfl⟩

end Sys2Proof.Machine
end

section
/-! The loads of a new instance (R113), from an image or from the text of one (R114), and the loader's examples. -/

namespace Sys2Proof.Machine

/-- The search finds nothing in an image of words (the converse is `firstNonWord_eq_none`). -/
theorem firstNonWord_of_words {c : Config} {image : List Int} (h : ∀ v ∈ image, c.InWord v) :
    firstNonWord c image = none := by
  induction image with
  | nil => rfl
  | cons v vs ih =>
    obtain ⟨hv, hvs⟩ := List.forall_mem_cons.1 h
    exact (if_pos hv).trans (ih hvs)

/-- A load is served, and neither check refuses it, when the image is of words and fits. -/
theorem serveLoad_next {s : State} {image : List Int} (hw : ∀ v ∈ image, s.cfg.InWord v)
    (hl : image.length ≤ s.cfg.maxLen) : serveLoad image s =
      .next { State.load s.cfg image with requests := s.requests, responses := s.responses } := by
  rw [serveLoad, firstNonWord_of_words hw]
  exact if_neg (Nat.not_lt.2 hl)

/-- A text that the loader reads is served as the load of its image. -/
theorem serveNew_of_parse {s : State} {text : List Char} {image : List Int}
    (h : parseListing s.cfg.wordWidth text = .ok image) : serveNew text s = serveLoad image s := by
  rw [serveNew, h]

/-- Settles O40: both requests are served by the same load, which does not look at `fault` (no `ifLive`). -/
theorem loadMakesAFreshInstance : Obligations.LoadMakesAFreshInstance := by
  intro s image rest hrun hw hl
  have load := serveLoad_next (s := { s with requests := rest }) hw hl
  refine ⟨fun hq => (step_request hrun hq).trans load, fun text hq htext => (step_request hrun hq).trans ?_⟩
  exact (serveNew_of_parse (s := { s with requests := rest }) htext).trans load

/-- Settles O42: the loader run on the texts, two that it reads and four that it rejects. -/
theorem loaderExamples : Obligations.LoaderExamples := by
  refine ⟨?spelledClosely, ?spelledWithBlanks, ?emptyToken, ?emptyText, ?noInteger, ?noWord⟩ <;> decide

end Sys2Proof.Machine
end
